-- ==== Sys2Proof/Word.lean ====
section
/-!
DEFINITION. The widths of the ULID CORE codec block (spec/00_scope.md R6, R7): the bus word, the
byte, the Base32 digit, and the values the commands work on.
-/

namespace Sys2Proof

/-- One 32-bit access of the register window, and one character slot (R7 `BUS_WIDTH`, `CHAR_W`). -/
abbrev Word := BitVec 32

/-- One byte of a binary ULID. -/
abbrev Byte := BitVec 8

/-- One Base32 digit: 5 bits (R6). -/
abbrev Digit := BitVec 5

/-- A byte offset in the 4 KiB register window: 12 bits (spec/20_memory.md R50). -/
abbrev Offset := BitVec 12

/-- The 128-bit ULID value (R6). -/
abbrev Value := BitVec 128

/-- The 48-bit timestamp field (R6). -/
abbrev Stamp := BitVec 48

/-- The 80-bit payload (R6). -/
abbrev Payload := BitVec 80

end Sys2Proof
end

