-- ==== Sys2Proof/Syntax.lean ====
section
/-!
DEFINITION. The commands (spec/30_encoding.md R82: one constructor per row of the opcode table),
the names of the window's registers (R51, R90), the host's accesses (R10, R92) and the lines of
the host syntax (R90, R91).
-/

namespace Sys2Proof

/-- The eleven commands of R82. No command has an operand field (R80). -/
inductive Instr where
  | enc
  | dec
  | pack
  | packs
  | packr
  | gens
  | genr
  | b2s
  | s2b
  | dtime
  | unpack
  deriving DecidableEq, Repr

/-- A word of the register window that has a name (spec/20_memory.md R51). Words of a register and
slots of an array are numbered in offset order, from 0. -/
inductive Reg where
  | cmd
  | status
  | errchar
  | ctrl
  | val (w : Fin 4)
  | buf (w : Fin 4)
  | buflen
  | strlen
  | pstrlen
  | timeh
  | timel
  | pay (w : Fin 3)
  | str (i : Fin 26)
  | pstr (j : Fin 16)
  | alpha (k : Fin 32)
  deriving DecidableEq, Repr

/-- The width of a bus access in bits. Only `w32` is legal (spec/20_memory.md R52). -/
inductive Width where
  | w8
  | w16
  | w32
  | w64
  deriving DecidableEq, Repr

/-- What the world outside the block can do to it, one action a step: a read or a write of the
window at a byte offset from `BASE` (R10, R92), or the platform's reset (spec/70_reset_and_hazards.md R230).
The data of a write of another width than 32 bits is never used: that access is a bus error. -/
inductive HostAction where
  | read (width : Width) (off : Offset)
  | write (width : Width) (off : Offset) (data : Word)
  | reset
  deriving DecidableEq, Repr

/-- The timestamp range policy named by `SETPOL` (R91) and held in `CTRL.TSPOL`
(spec/10_state.md R26). -/
inductive TsPolicy where
  | reject
  | truncate
  deriving DecidableEq, Repr

/-- One line of a host program: the accesses of R90 and the pseudo-instructions of R91. -/
inductive HostLine where
  | wr (r : Reg) (v : Word)
  | rd (r : Reg)
  | rdExpect (r : Reg) (expected : Word)
  | command (i : Instr)
  | cmdw (w : Word)
  | setpol (p : TsPolicy)
  | ldval (v : Value)
  | ldtime (t : Int)
  | ldpay (p : Payload)
  | ldbuf (b : Vector Byte 16)
  | ldstr (s : List Char)
  | ldpstr (s : List Char)
  | rdstr
  | rdbuf
  | rdtime
  | rdpay
  | check
  deriving DecidableEq, Repr

end Sys2Proof
end

