-- ==== Sys2Proof/WellFormed.lean ====
section
/-!
DEFINITION. What the spec asks of a command, a command word, an access and a host line before it
has its plain meaning. Each check is a Bool, so that a test can show a term it refuses.
-/

namespace Sys2Proof

/-- A command has no field (R80), so every command is well formed. -/
def Instr.wellFormed : Instr → Bool
  | .enc | .dec | .pack | .packs | .packr | .gens | .genr | .b2s | .s2b | .dtime | .unpack => true

/-- A command word's reserved bits [31:8] must be 0 and its `OP` one of 0x01 to 0x0B
(spec/30_encoding.md R80 to R83). -/
def commandWordWellFormed (w : Word) : Bool :=
  w.extractLsb' 8 24 == 0#24 && decide (1 ≤ (w.extractLsb' 0 8).toNat) &&
    decide ((w.extractLsb' 0 8).toNat ≤ 11)

/-- A legal access is 32 bits wide and 4-byte aligned (spec/20_memory.md R52, R53); reset is no
access and is always legal (R230). -/
def HostAction.wellFormed : HostAction → Bool
  | .read width off => decide (width = .w32) && off.extractLsb' 0 2 == 0#2
  | .write width off _ => decide (width = .w32) && off.extractLsb' 0 2 == 0#2
  | .reset => true

/-- `LDTIME t` takes -2^63 ≤ t < 2^63 (R91); the other lines' operands are in range by type. -/
def HostLine.wellFormed : HostLine → Bool
  | .ldtime t => decide (-(2 ^ 63) ≤ t) && decide (t < 2 ^ 63)
  | .wr _ _ | .rd _ | .rdExpect _ _ | .command _ | .cmdw _ | .setpol _ | .ldval _ | .ldpay _
  | .ldbuf _ | .ldstr _ | .ldpstr _ | .rdstr | .rdbuf | .rdtime | .rdpay | .check => true

end Sys2Proof
end

