-- ==== Sys2Proof/Decode.lean ====
section
/-!
DEFINITION. The command word (spec/30_encoding.md R80 to R83): decoding, total on every 32-bit
word and rejecting by name, and the encoder, written from the opcode map of R82.
-/

namespace Sys2Proof

/-- Why a word is no command (R83). Either way the block answers `IllegalCommand` (R205). -/
inductive IllegalWord where
  /-- `w[31:8]` is not 0. -/
  | reservedBits
  /-- `OP` is 0x00 or 0x0C to 0xFF. -/
  | undefinedOp
  deriving DecidableEq, Repr

/-- Decoding's answer: exactly one command, or an illegal word (R81). -/
inductive Decoded where
  | instr (i : Instr)
  | illegal (reason : IllegalWord)
  deriving DecidableEq, Repr

/-- `OP`, bits [7:0] of a command word (R80). -/
def opField (w : Word) : BitVec 8 := w.extractLsb' 0 8

/-- `RSVD`, bits [31:8] of a command word (R80). -/
def rsvdField (w : Word) : BitVec 24 := w.extractLsb' 8 24

/-- The opcode map of R82, from the operation number. -/
def decodeOp (op : BitVec 8) : Option Instr :=
  match op.toNat with
  | 0x01 => some .enc
  | 0x02 => some .dec
  | 0x03 => some .pack
  | 0x04 => some .packs
  | 0x05 => some .packr
  | 0x06 => some .gens
  | 0x07 => some .genr
  | 0x08 => some .b2s
  | 0x09 => some .s2b
  | 0x0A => some .dtime
  | 0x0B => some .unpack
  | _ => none

/-- Decoding, as R81's pseudocode: reserved bits first, then the operation number. -/
def decode (w : Word) : Decoded :=
  if rsvdField w ≠ 0#24 then .illegal .reservedBits
  else
    match decodeOp (opField w) with
    | some i => .instr i
    | none => .illegal .undefinedOp

/-- The operation number of a command (R82). -/
def opcode : Instr → BitVec 8
  | .enc => 0x01#8
  | .dec => 0x02#8
  | .pack => 0x03#8
  | .packs => 0x04#8
  | .packr => 0x05#8
  | .gens => 0x06#8
  | .genr => 0x07#8
  | .b2s => 0x08#8
  | .s2b => 0x09#8
  | .dtime => 0x0A#8
  | .unpack => 0x0B#8

/-- The one word of a command: `OP` in [7:0], `RSVD` 0 (R80). -/
def encode (i : Instr) : Word := 0#24 ++ opcode i

/-- What the decoder reads from an instruction whose `nbits` bits are `w`, bit 0 the least
significant bit of the command word. A command is one 32-bit word (R80); bits above `nbits` are 0. -/
def decodeTableWord (nbits w : Nat) : Option Instr :=
  if w % 2 ^ nbits < 2 ^ 32 then
    match decode (BitVec.ofNat 32 (w % 2 ^ nbits)) with
    | .instr i => some i
    | .illegal _ => none
  else none

/-! Each constructor's decoding, by a word written out from R82 (`w` = `OP`, upper bits 0). -/

theorem decode_word_enc : decode 0b00000000000000000000000000000001#32 = .instr .enc := by decide
theorem decode_word_dec : decode 0b00000000000000000000000000000010#32 = .instr .dec := by decide
theorem decode_word_pack : decode 0b00000000000000000000000000000011#32 = .instr .pack := by decide
theorem decode_word_packs : decode 0b00000000000000000000000000000100#32 = .instr .packs := by decide
theorem decode_word_packr : decode 0b00000000000000000000000000000101#32 = .instr .packr := by decide
theorem decode_word_gens : decode 0b00000000000000000000000000000110#32 = .instr .gens := by decide
theorem decode_word_genr : decode 0b00000000000000000000000000000111#32 = .instr .genr := by decide
theorem decode_word_b2s : decode 0b00000000000000000000000000001000#32 = .instr .b2s := by decide
theorem decode_word_s2b : decode 0b00000000000000000000000000001001#32 = .instr .s2b := by decide
theorem decode_word_dtime : decode 0b00000000000000000000000000001010#32 = .instr .dtime := by decide
theorem decode_word_unpack : decode 0b00000000000000000000000000001011#32 = .instr .unpack := by decide

end Sys2Proof
end

