-- ==== Sys2Proof/Machine/Alphabet.lean ====
section
/-!
DEFINITION. The alphabet (spec/30_encoding.md R85 to R87, spec/00_scope.md R11): the code of each
digit's symbol, and the digit of a code.
-/

namespace Sys2Proof.Machine

/-- The 32 codes of R86, in digit order (`0123456789ABCDEFGHJKMNPQRSTVWXYZ`). PRESUMED by the spec
itself: the numbers are the ASCII and Unicode code points of the symbols (X1; log 9). -/
def alphabetCodes : List Word :=
  [0x30#32, 0x31#32, 0x32#32, 0x33#32, 0x34#32, 0x35#32, 0x36#32, 0x37#32,
    0x38#32, 0x39#32, 0x41#32, 0x42#32, 0x43#32, 0x44#32, 0x45#32, 0x46#32] ++
  [0x47#32, 0x48#32, 0x4A#32, 0x4B#32, 0x4D#32, 0x4E#32, 0x50#32, 0x51#32,
    0x52#32, 0x53#32, 0x54#32, 0x56#32, 0x57#32, 0x58#32, 0x59#32, 0x5A#32]

/-- `Code(Sym(k))` for the digit `k` (R11, R86). -/
def code (k : Digit) : Word := alphabetCodes.getD k.toNat 0#32

/-- The place of a code in a list of codes, counted from `k`. -/
def codeIndex (u : Word) : List Word → Nat → Option Nat
  | [], _ => none
  | c :: cs, k => if u = c then some k else codeIndex u cs (k + 1)

/-- `Idx(u)`: the digit whose code is `u`, compared on all 32 bits, or none (R11, R87). -/
def idx (u : Word) : Option Digit := (codeIndex u alphabetCodes 0).map (BitVec.ofNat 5)

end Sys2Proof.Machine
end

