-- ==== Sys2Proof/Machine/Base32.lean ====
section
/-!
DEFINITION. The pure functions of the codec and of the engine: big-endian bytes
(spec/00_scope.md R15), `Enc26` (spec/40_codec.md R100), `Fold` (R104) with the first-character
check (R106), and `Pack16` (spec/41_engine_encode.md R131).
-/

namespace Sys2Proof.Machine

/-- `BE`: a byte sequence read as a big-endian unsigned integer (R15). -/
def be (bytes : List Byte) : Nat := bytes.foldl (fun acc b => acc * 256 + b.toNat) 0

/-- `BEBytes_n(v)`: byte `k` is `v[8(n-1-k)+7 : 8(n-1-k)]` (R15). -/
def beBytes {w : Nat} (n : Nat) (v : BitVec w) : Vector Byte n :=
  Vector.ofFn fun k => v.extractLsb' (8 * (n - 1 - k.val)) 8

/-- The binary ULID read as a 128-bit integer (spec/20_memory.md R61). -/
def be16 (b : Vector Byte 16) : Value := BitVec.ofNat 128 (be b.toList)

/-- `Pack16(ts48, pay80) = BEBytes_16({ts48, pay80})` (R131). -/
def pack16 (ts : Stamp) (p : Payload) : Vector Byte 16 := beBytes 16 (ts ++ p)

/-- The digit that character `i` of the text holds: `v[129-5i : 125-5i]` of the value
zero-extended to 130 bits (spec/30_encoding.md R89). -/
def encDigit (v : Value) (i : Nat) : Digit := (v.setWidth 130).extractLsb' (125 - 5 * i) 5

/-- `Enc26(v)` in the closed form of R100, as the 26 codes the commands write. -/
def enc26 (v : Value) : Vector Word 26 := Vector.ofFn fun i => code (encDigit v i.val)

/-- The loop of R100's pseudocode from position `i = n - 1` down: `s[i] <- Sym(v & 0x1F)`,
`v <- v >> 5`, while `v != 0`. `n` bounds the passes: R100 says at most 26 are made. -/
def enc26Loop : Nat → Nat → Vector Word 26 → Vector Word 26
  | 0, _, s => s
  | n + 1, v, s =>
    if v = 0 then s
    else enc26Loop n (v / 32) (s.setIfInBounds n (code (BitVec.ofNat 5 (v % 32))))

/-- R100's pseudocode as it stands: every position starts as `Sym(0)`. -/
def enc26ByLoop (v : Value) : Vector Word 26 :=
  enc26Loop 26 v.toNat (Vector.replicate 26 (code 0#5))

/-- What a fold over character slots answers (R104). -/
inductive FoldResult where
  /-- Every slot held a digit; the exact accumulated value. -/
  | ok (acc : Nat)
  /-- The first slot that is refused, and its code. -/
  | bad (i : Nat) (u : Word)
  deriving DecidableEq, Repr

/-- The left-to-right fold `acc <- acc * 32 + Idx(slot)` (R104) from slot `i` on. Slot 0 is also
refused when its digit is `top` or more: `top = 8` is the check of R106 (`DEC`, `S2B`), and
`top = 32` refuses no digit. -/
def foldFrom (top : Nat) : Nat → Nat → List Word → FoldResult
  | _, acc, [] => .ok acc
  | i, acc, u :: us =>
    match idx u with
    | none => .bad i u
    | some d =>
      if i = 0 ∧ top ≤ d.toNat then .bad i u
      else foldFrom top (i + 1) (acc * 32 + d.toNat) us

/-- `Fold` over a whole slot sequence, from slot 0 (R104). -/
def foldSlots (slots : List Word) : FoldResult := foldFrom 32 0 0 slots

/-- The fold of `DEC` and `S2B`, with the first-character check (R105, R106, R170). -/
def foldText (slots : List Word) : FoldResult := foldFrom 8 0 0 slots

/-- How many of `n` slots a fold reads: it reads no slot after one it refuses (R104, R34). -/
def slotsRead (n : Nat) : FoldResult → Nat
  | .ok _ => n
  | .bad i _ => i + 1

/-- The slots of a valid ULID string (R103): 26 codes of the alphabet, the first at most 7. -/
def validText (s : Vector Word 26) : Bool :=
  s.toList.all (fun u => (idx u).isSome) && ((idx s[0]).any fun d => decide (d.toNat ≤ 7))

end Sys2Proof.Machine
end

