-- ==== Sys2Proof/Config.lean ====
section
/-!
DEFINITION. What is fixed for the machine: the constants of spec/00_scope.md R5 to R7, the OPEN
base address, and the entropy port's free values. An opaque constant has no body that Lean can
look into, so no proof can rest on its value.
-/

namespace Sys2Proof

/-- `WINDOW_BYTES` (R7). -/
abbrev Config.windowBytes : Nat := 4096

/-- The encoded length and `STR_CAP`: 26 characters (R5, R7). -/
abbrev Config.strCap : Nat := 26

/-- The payload-override length and `PSTR_CAP`: 16 characters (R5, R7). -/
abbrev Config.pstrCap : Nat := 16

/-- The binary length and `BUF_CAP`: 16 bytes (R5, R7). -/
abbrev Config.bufCap : Nat := 16

/-- The greatest timestamp, 2^48 - 1 milliseconds (R6, R19). -/
abbrev Config.maxStamp : Nat := 2 ^ 48 - 1

/-- `BASE`, the window's base address: OPEN, placed by the platform (R7, spec/20_memory.md R50).
DESIGN CHOICE (log 7): the model's accesses carry window offsets, so nothing depends on it.
Safe: nothing is known of it. -/
opaque Config.base : Nat

/-- The entropy port (spec/10_state.md R33): the 10 bytes `E[0..9]` of draw number `n`, `E[0]` the
first byte the provider returns (R14). A FREE VALUE under no law: every claim holds for every
draw. DESIGN CHOICE (log 2). Safe. -/
opaque Config.entropyDraw (n : Nat) : Vector Byte 10

end Sys2Proof
end

