-- ==== Sys2Proof/Machine/State.lean ====
section
/-!
DEFINITION. The state of the block (spec/10_state.md R20 to R37) as plain data, the reasons a step
can stop, and the state after reset (R37, spec/70_reset_and_hazards.md R230, R249).
-/

namespace Sys2Proof.Machine

/-- Why a step stops with a fault. -/
inductive Fault where
  /-- Raised by `perform` for an access that is not 32 bits wide or not 4-byte aligned
  (spec/20_memory.md R52 to R54: a bus error changes no state and is a model fault). Safe: the
  spec gives the run no further meaning. -/
  | busError
  /-- Raised by `strictStep` only, never by `step`: an access or a command read a word that
  nothing has written since reset (spec/10_state.md R36). Safe. -/
  | unwrittenRead
  deriving DecidableEq, Repr

/-- Why an instruction is refused. -/
inductive Refusal where
  /-- Raised by an arm of `exec` that has no meaning yet: no arm is left so. Safe. -/
  | notModelled (mnemonic : String)
  deriving DecidableEq, Repr

/-- The error codes a command can raise (spec/60_exceptions.md R200). -/
inductive ErrorCode where
  | invalidLength
  | invalidCharacter
  | invalidPayloadEncoding
  | timestampOutOfRange
  | illegalCommand
  deriving DecidableEq, Repr

/-- The written bits of R36: bit `i` of a field belongs to word or slot `i` of that register, in
offset order. -/
structure Written where
  val : BitVec 4
  buf : BitVec 4
  buflen : Bool
  strlen : Bool
  pstrlen : Bool
  time : BitVec 2
  pay : BitVec 3
  str : BitVec 26
  pstr : BitVec 16
  deriving DecidableEq, Repr

/-- Everything the spec gives the block, and after it the model's own fields. Reserved bits have
no storage: the operations that read and write registers supply them (R26 to R28). `ALPHA` is
constant (R31) and has no storage either. -/
structure State where
  /-- `CMD`: the last command word written (R30). -/
  cmd : Word
  /-- `STATUS.ERR` (R28). -/
  err : BitVec 4
  /-- `STATUS.ERRPOS` (R28). -/
  errPos : BitVec 5
  /-- `ERRCHAR` (R29). -/
  errChar : Word
  /-- `CTRL.TSPOL`: 0 = REJECT, 1 = TRUNCATE (R26). -/
  tspol : BitVec 1
  /-- `VAL` (R21). -/
  val : Value
  /-- `BUF[0..15]` (R22). -/
  buf : Vector Byte 16
  /-- `BUFLEN` (R22). -/
  buflen : Word
  /-- `STRLEN` (R23). -/
  strlen : Word
  /-- `PSTRLEN` (R24). -/
  pstrlen : Word
  /-- `TIME`, read as two's complement by the commands (R25). -/
  time : BitVec 64
  /-- `PAY` (R27). -/
  pay : Payload
  /-- `STR[0..25]` (R23). -/
  str : Vector Word 26
  /-- `PSTR[0..15]` (R24). -/
  pstr : Vector Word 16
  /-- The written bits (R36). -/
  written : Written
  /-- The recorded model fault of R36 and R207: a word was read that nothing had written since
  reset. Never cleared. DESIGN CHOICE (log 5). -/
  faulted : Bool
  /-- The model's own: how many draws the entropy port has given (R33). DESIGN CHOICE (log 2). -/
  draws : Nat
  /-- The model's own: the actions the outside world has still to take, the next one first (R92,
  R248). DESIGN CHOICE (log 1). -/
  host : List HostAction
  /-- The model's own: the values the host's reads have returned, oldest first (R248).
  DESIGN CHOICE (log 3). -/
  reads : List Word
  deriving DecidableEq, Repr

/-- No word is written: every written bit as reset leaves it (R36). -/
def Written.none : Written where
  val := 0#4
  buf := 0#4
  buflen := false
  strlen := false
  pstrlen := false
  time := 0#2
  pay := 0#3
  str := 0#26
  pstr := 0#16

/-- The block right after reset (R37, the premise `AfterReset` of R249). The operand registers'
contents are unspecified there: the zeros are a DESIGN CHOICE (log 4), unsafe, and every one of
those words is unwritten. -/
def State.reset : State where
  cmd := 0#32
  err := 0#4
  errPos := 0#5
  errChar := 0#32
  tspol := 0#1
  val := 0#128
  buf := Vector.replicate 16 0#8
  buflen := 0#32
  strlen := 0#32
  pstrlen := 0#32
  time := 0#64
  pay := 0#80
  str := Vector.replicate 26 0#32
  pstr := Vector.replicate 16 0#32
  written := Written.none
  faulted := false
  draws := 0
  host := []
  reads := []

end Sys2Proof.Machine
end

