-- ==== Sys2Proof/Machine/Flags.lean ====
section
/-!
DEFINITION. The block's only condition state, `STATUS` and `ERRCHAR` (spec/10_state.md R28, R29,
R32): the error numbers and the status word. There are no arithmetic flags.
-/

namespace Sys2Proof.Machine

/-- The number of an error in `STATUS.ERR` (spec/60_exceptions.md R200). -/
def errorNumber : ErrorCode → BitVec 4
  | .invalidLength => 1#4
  | .invalidCharacter => 2#4
  | .invalidPayloadEncoding => 3#4
  | .timestampOutOfRange => 4#4
  | .illegalCommand => 5#4

/-- The `STATUS` word: `ERRPOS` in [12:8], `ERR` in [3:0], every other bit 0 (R28). -/
def statusWord (err : BitVec 4) (pos : BitVec 5) : Word := 0#19 ++ pos ++ 0#4 ++ err

/-- The `CTRL` word: `TSPOL` in bit 0, every other bit 0 (R26). -/
def ctrlWord (tspol : BitVec 1) : Word := 0#31 ++ tspol

end Sys2Proof.Machine
end

