-- ==== Sys2Proof/Machine/Ops.lean ====
section
/-!
DEFINITION. The named operations on the registers: the end of a command, by error or by success
(spec/00_scope.md R12, R13), the written bits (spec/10_state.md R36), the result writes of the
commands (R34), the draw (R14), one word of the window read or written (spec/20_memory.md R51,
R55 to R58), and reset (spec/70_reset_and_hazards.md R230).
-/

namespace Sys2Proof.Machine

/-- `raise E(pos, ch)`: the block's one way to take an error. It writes `STATUS` and `ERRCHAR` and
nothing else; nothing is saved and control moves nowhere (R12, spec/60_exceptions.md R210). -/
def raise (e : ErrorCode) (pos : BitVec 5) (ch : Word) (s : State) : State :=
  { s with err := errorNumber e, errPos := pos, errChar := ch }

/-- `complete`: a command ends with no error (R13). There is no return from an error: the next
command's outcome overwrites the status (R211). -/
def complete (s : State) : State := { s with err := 0#4, errPos := 0#5, errChar := 0#32 }

/-- Whether a word has a value: written since reset, or of a register that reset defines (R36). -/
def isWritten (s : State) : Reg → Bool
  | .cmd => true
  | .status => true
  | .errchar => true
  | .ctrl => true
  | .val w => s.written.val.getLsbD w.val
  | .buf w => s.written.buf.getLsbD w.val
  | .buflen => s.written.buflen
  | .strlen => s.written.strlen
  | .pstrlen => s.written.pstrlen
  | .timeh => s.written.time.getLsbD 0
  | .timel => s.written.time.getLsbD 1
  | .pay w => s.written.pay.getLsbD w.val
  | .str i => s.written.str.getLsbD i.val
  | .pstr j => s.written.pstr.getLsbD j.val
  | .alpha _ => true

/-- The words `rs` are read: a model fault is recorded if one of them is unwritten, and it is
never cleared (R36, R207). -/
def noteRead (rs : List Reg) (s : State) : State :=
  { s with faulted := s.faulted || !rs.all (isWritten s) }

/-! Result writes. Each sets the written bits of the words it writes (R36). -/

/-- `VAL <- v` (R105). -/
def putVal (v : Value) (s : State) : State :=
  { s with val := v, written := { s.written with val := BitVec.allOnes 4 } }

/-- `BUF[0..15] <- b`, `BUFLEN <- 16` (R132, R170). -/
def putBuf (b : Vector Byte 16) (s : State) : State :=
  { s with buf := b, buflen := 16#32,
           written := { s.written with buf := BitVec.allOnes 4, buflen := true } }

/-- `STR[0..25] <- c`, `STRLEN <- 26` (R101, R150). -/
def putStr (c : Vector Word 26) (s : State) : State :=
  { s with str := c, strlen := 26#32,
           written := { s.written with str := BitVec.allOnes 26, strlen := true } }

/-- `TIME <- t` (R175, R180). -/
def putTime (t : BitVec 64) (s : State) : State :=
  { s with time := t, written := { s.written with time := BitVec.allOnes 2 } }

/-- `PAY <- p` (R180). -/
def putPay (p : Payload) (s : State) : State :=
  { s with pay := p, written := { s.written with pay := BitVec.allOnes 3 } }

/-- One more draw has been taken from the entropy port (log 2). -/
def countDraw (s : State) : State := { s with draws := s.draws + 1 }

/-- `E[0..9] <- Draw80()`: the next draw of the entropy port (R14, R33). -/
def withDraw (s : State) (k : Vector Byte 10 → State → State) : State :=
  k (Config.entropyDraw s.draws) (countDraw s)

/-- The actions that the outside world has still to take (log 1). -/
def withHost (rest : List HostAction) (s : State) : State := { s with host := rest }

/-! One word of the window. -/

/-- `v` with the bits from `lo` up replaced by `x`. -/
def splice {n m : Nat} (v : BitVec n) (lo : Nat) (x : BitVec m) : BitVec n :=
  (v &&& ~~~((BitVec.allOnes m).setWidth n <<< lo)) ||| (x.setWidth n <<< lo)

/-- Word `w` of `BUF`: `BUF[4w]` in bits [31:24] (spec/20_memory.md R62). -/
def bufWord (b : Vector Byte 16) (w : Fin 4) : Word :=
  b[4 * w.val] ++ b[4 * w.val + 1] ++ b[4 * w.val + 2] ++ b[4 * w.val + 3]

/-- `BUF` with word `w` replaced: `BUF[4w+m] = v[31-8m : 24-8m]` (spec/30_encoding.md R84). -/
def setBufWord (b : Vector Byte 16) (w : Fin 4) (v : Word) : Vector Byte 16 :=
  Vector.ofFn fun k =>
    if k.val / 4 = w.val then v.extractLsb' (24 - 8 * (k.val % 4)) 8 else b[k.val]

/-- The current value of a word of the window (R51). Reserved bits read 0 (R57). -/
def readReg (s : State) : Reg → Word
  | .cmd => s.cmd
  | .status => statusWord s.err s.errPos
  | .errchar => s.errChar
  | .ctrl => ctrlWord s.tspol
  | .val w => s.val.extractLsb' (96 - 32 * w.val) 32
  | .buf w => bufWord s.buf w
  | .buflen => s.buflen
  | .strlen => s.strlen
  | .pstrlen => s.pstrlen
  | .timeh => s.time.extractLsb' 32 32
  | .timel => s.time.extractLsb' 0 32
  | .pay w => s.pay.extractLsb' (64 - 32 * w.val) 32
  | .str i => s.str[i.val]
  | .pstr j => s.pstr[j.val]
  | .alpha k => code (BitVec.ofNat 5 k.val)

/-- A host write stores the word in a register and marks it written (R36, R57). A write to a
read-only register is ignored (R56), and so are writes to reserved bits. Storing `CMD` is here;
executing the command is `runCommand` (R64). -/
def writeReg (r : Reg) (v : Word) (s : State) : State :=
  match r with
  | .cmd => { s with cmd := v }
  | .status => s
  | .errchar => s
  | .ctrl => { s with tspol := v.extractLsb' 0 1 }
  | .val w => { s with val := splice s.val (96 - 32 * w.val) v,
                       written := { s.written with val := s.written.val ||| BitVec.twoPow 4 w.val } }
  | .buf w => { s with buf := setBufWord s.buf w v,
                       written := { s.written with buf := s.written.buf ||| BitVec.twoPow 4 w.val } }
  | .buflen => { s with buflen := v, written := { s.written with buflen := true } }
  | .strlen => { s with strlen := v, written := { s.written with strlen := true } }
  | .pstrlen => { s with pstrlen := v, written := { s.written with pstrlen := true } }
  | .timeh => { s with time := splice s.time 32 v,
                       written := { s.written with time := s.written.time ||| BitVec.twoPow 2 0 } }
  | .timel => { s with time := splice s.time 0 v,
                       written := { s.written with time := s.written.time ||| BitVec.twoPow 2 1 } }
  | .pay w => { s with pay := splice s.pay (64 - 32 * w.val) v,
                       written := { s.written with pay := s.written.pay ||| BitVec.twoPow 3 w.val } }
  | .str i => { s with str := s.str.set i.val v,
                       written := { s.written with str := s.written.str ||| BitVec.twoPow 26 i.val } }
  | .pstr j => { s with pstr := s.pstr.set j.val v,
                        written := { s.written with pstr := s.written.pstr ||| BitVec.twoPow 16 j.val } }
  | .alpha _ => s

/-- The register at an aligned offset, by its word number; none for a reserved offset (R51, R55). -/
def regAt (off : Offset) : Option Reg :=
  let n := off.toNat / 4
  if n = 0 then some .cmd
  else if n = 1 then some .status
  else if n = 2 then some .errchar
  else if n = 3 then some .ctrl
  else if h : 4 ≤ n ∧ n < 8 then some (.val ⟨n - 4, by omega⟩)
  else if h : 8 ≤ n ∧ n < 12 then some (.buf ⟨n - 8, by omega⟩)
  else if n = 12 then some .buflen
  else if n = 13 then some .strlen
  else if n = 14 then some .pstrlen
  else if n = 16 then some .timeh
  else if n = 17 then some .timel
  else if h : 18 ≤ n ∧ n < 21 then some (.pay ⟨n - 18, by omega⟩)
  else if h : 64 ≤ n ∧ n < 90 then some (.str ⟨n - 64, by omega⟩)
  else if h : 96 ≤ n ∧ n < 112 then some (.pstr ⟨n - 96, by omega⟩)
  else if h : 128 ≤ n ∧ n < 160 then some (.alpha ⟨n - 128, by omega⟩)
  else none

/-- The offset of a register, from the map of R51. -/
def offsetOf : Reg → Offset
  | .cmd => 0x000#12
  | .status => 0x004#12
  | .errchar => 0x008#12
  | .ctrl => 0x00C#12
  | .val w => BitVec.ofNat 12 (0x010 + 4 * w.val)
  | .buf w => BitVec.ofNat 12 (0x020 + 4 * w.val)
  | .buflen => 0x030#12
  | .strlen => 0x034#12
  | .pstrlen => 0x038#12
  | .timeh => 0x040#12
  | .timel => 0x044#12
  | .pay w => BitVec.ofNat 12 (0x048 + 4 * w.val)
  | .str i => BitVec.ofNat 12 (0x100 + 4 * i.val)
  | .pstr j => BitVec.ofNat 12 (0x180 + 4 * j.val)
  | .alpha k => BitVec.ofNat 12 (0x200 + 4 * k.val)

/-- The platform's bus address of a window offset (R10, R50), for every `BASE`. -/
def busAddress (off : Offset) : Nat := Config.base + off.toNat

/-- The window offset a bus address selects; none outside the window (R50). -/
def windowOffset (a : Nat) : Option Offset :=
  if Config.base ≤ a ∧ a < Config.base + Config.windowBytes then
    some (BitVec.ofNat 12 (a - Config.base))
  else none

/-- The value of a 32-bit read at an aligned offset: a reserved offset reads 0 (R55). -/
def windowWord (s : State) (off : Offset) : Word :=
  match regAt off with
  | some r => readReg s r
  | none => 0#32

/-- `MemRead(BASE + off, 4)`: the host receives the word; nothing else changes but the record of a
read of an unwritten word (R36, R58). -/
def hostRead (off : Offset) (s : State) : State :=
  match regAt off with
  | some r => { noteRead [r] s with reads := s.reads ++ [readReg s r] }
  | none => { s with reads := s.reads ++ [0#32] }

/-- `MemWrite(BASE + off, 4, v)` without the execution of a command: a write to a reserved offset
is ignored (R55). -/
def hostWrite (off : Offset) (v : Word) (s : State) : State :=
  match regAt off with
  | some r => writeReg r v s
  | none => s

/-- An access is legal when it is 32 bits wide and 4-byte aligned (R52, R53). -/
def accessLegal (width : Width) (off : Offset) : Bool :=
  decide (width = .w32) && decide (off.toNat % 4 = 0)

/-- Reset as a step between two accesses (R230): every register as R37 says, no other effect. What
the outside world is about to do, what it has read, how many draws it has given and the record of
a model fault (R207: never cleared) are no registers and stay. -/
def applyReset (s : State) : State :=
  { State.reset with host := s.host, reads := s.reads, draws := s.draws, faulted := s.faulted }

end Sys2Proof.Machine
end

