-- ==== Sys2Proof/Machine/Operands.lean ====
section
/-!
DEFINITION. Every operand form of the commands: what each reads, in the order of spec/10_state.md
R34 and spec/60_exceptions.md R208, and the check that guards it: `TS48`
(spec/41_engine_encode.md R130), `PayFromStr` (R135), the 26-character text (spec/40_codec.md
R105), its first ten characters (spec/42_engine_decode.md R175) and the 16-byte buffer
(spec/41_engine_encode.md R160).
-/

namespace Sys2Proof.Machine

/-- An operand that has passed its check, or the error its check raises. -/
inductive Checked (α : Type) where
  | ok (a : α)
  | bad (e : ErrorCode) (pos : BitVec 5) (ch : Word)
  deriving DecidableEq, Repr

/-- Read the words `rs` and check an operand: on failure the command ends by `raise` with no
result written (spec/60_exceptions.md R210), otherwise it goes on with the operand. -/
def guarded {α : Type} (rs : List Reg) (c : Checked α) (s : State) (k : α → State → State) : State :=
  match c with
  | .ok a => k a (noteRead rs s)
  | .bad e pos ch => raise e pos ch (noteRead rs s)

/-- The words of `VAL` (R84). -/
def valReads : List Reg := [.val 0, .val 1, .val 2, .val 3]

/-- The words of `TIME` (R84). -/
def timeReads : List Reg := [.timeh, .timel]

/-- The words of `PAY` (R84). -/
def payReads : List Reg := [.pay 0, .pay 1, .pay 2]

/-- The words of `BUF` (R84). -/
def bufReads : List Reg := [.buf 0, .buf 1, .buf 2, .buf 3]

/-- `TS48()`: under REJECT a `TIME` below 0 or above 2^48 - 1 raises `TimestampOutOfRange`; under
TRUNCATE the field is the low 48 bits (R130). -/
def ts48 (s : State) : Checked Stamp :=
  if s.tspol = 0#1 then
    if s.time.toInt < 0 ∨ (Config.maxStamp : Int) < s.time.toInt then
      .bad .timestampOutOfRange 0#5 0#32
    else .ok (s.time.setWidth 48)
  else .ok (s.time.setWidth 48)

/-- `PayFromStr()`: length 16 first, then 16 digits, most significant first (R135, R136). -/
def payFromStr (s : State) : Checked Payload :=
  if s.pstrlen ≠ 16#32 then .bad .invalidPayloadEncoding 0#5 0#32
  else
    match foldSlots s.pstr.toList with
    | .bad j u => .bad .invalidPayloadEncoding (BitVec.ofNat 5 j) u
    | .ok acc => .ok (BitVec.ofNat 80 acc)

/-- What `PayFromStr` reads: `PSTRLEN`, and when it is 16 the slots up to the first bad one (R34). -/
def payStrReads (s : State) : List Reg :=
  .pstrlen ::
    (if s.pstrlen = 16#32 then
      ((List.finRange 16).take (slotsRead 16 (foldSlots s.pstr.toList))).map .pstr
    else [])

/-- The 26-character string operand of `DEC` and `S2B`: length, then characters in order, the
first of value at most 7 (R105, R106, R170). -/
def textOperand (s : State) : Checked Value :=
  if s.strlen ≠ 26#32 then .bad .invalidLength 0#5 0#32
  else
    match foldText s.str.toList with
    | .bad i u => .bad .invalidCharacter (BitVec.ofNat 5 i) u
    | .ok acc => .ok (BitVec.ofNat 128 acc)

/-- What `DEC` and `S2B` read: `STRLEN`, and when it is 26 the slots up to the first bad one (R34). -/
def textReads (s : State) : List Reg :=
  .strlen ::
    (if s.strlen = 26#32 then
      ((List.finRange 26).take (slotsRead 26 (foldText s.str.toList))).map .str
    else [])

/-- The timestamp operand of `DTIME`: length, then the first ten characters, then the 48-bit range
of their 50-bit value (R175, R177). Characters 10 to 25 are neither read nor checked (R176). -/
def textTimeOperand (s : State) : Checked Stamp :=
  if s.strlen ≠ 26#32 then .bad .invalidLength 0#5 0#32
  else
    match foldSlots (s.str.toList.take 10) with
    | .bad i u => .bad .invalidCharacter (BitVec.ofNat 5 i) u
    | .ok t =>
      if Config.maxStamp < t then .bad .timestampOutOfRange 0#5 0#32
      else .ok (BitVec.ofNat 48 t)

/-- What `DTIME` reads: `STRLEN`, and when it is 26 the slots 0 to 9 up to the first bad one (R34). -/
def textTimeReads (s : State) : List Reg :=
  .strlen ::
    (if s.strlen = 26#32 then
      ((List.finRange 26).take (slotsRead 10 (foldSlots (s.str.toList.take 10)))).map .str
    else [])

/-- The binary operand of `B2S` and `UNPACK`: 16 bytes or `InvalidLength` (R160, R180,
spec/90_conflicts.md C1). -/
def binaryOperand (s : State) : Checked (Vector Byte 16) :=
  if s.buflen ≠ 16#32 then .bad .invalidLength 0#5 0#32 else .ok s.buf

/-- What `B2S` and `UNPACK` read: `BUFLEN`, and when it is 16 the words of `BUF` (R34). -/
def binaryReads (s : State) : List Reg :=
  .buflen :: (if s.buflen = 16#32 then bufReads else [])

/-- The payload of a draw: `BE(E[0..9])`, the first byte the most significant (R145). -/
def drawPayload (e : Vector Byte 10) : Payload := BitVec.ofNat 80 (be e.toList)

end Sys2Proof.Machine
end

