-- ==== Sys2Proof/Machine/Codec.lean ====
section
/-!
DEFINITION. The Base32 Codec's commands `ENC` and `DEC` (spec/40_codec.md R101, R105).
-/

namespace Sys2Proof.Machine

/-- `ENC`: `VAL` to a 26-character string; every value encodes (R101). -/
def execEnc (s : State) : Host.Outcome State Fault Refusal :=
  .next (guarded valReads (.ok s.val) s fun v s1 => complete (putStr (enc26 v) s1))

/-- `DEC`: the 26-character string to `VAL` (R105, R106). -/
def execDec (s : State) : Host.Outcome State Fault Refusal :=
  .next (guarded (textReads s) (textOperand s) s fun v s1 => complete (putVal v s1))

end Sys2Proof.Machine
end

