-- ==== Sys2Proof/Machine/EngineDecode.lean ====
section
/-!
DEFINITION. The ULID Engine's decode path (spec/42_engine_decode.md): `S2B`, `DTIME`, `UNPACK`.
-/

namespace Sys2Proof.Machine

/-- The high and the low 64 bits, each written big-endian, concatenated (R170, R171). -/
def splitBytes (v : Value) : Vector Byte 16 :=
  beBytes 8 (v.extractLsb' 64 64) ++ beBytes 8 (v.extractLsb' 0 64)

/-- `BE(BUF[0..5])`, the timestamp field of 16 bytes (R180). -/
def stampOf (b : Vector Byte 16) : Stamp := BitVec.ofNat 48 (be (b.toList.take 6))

/-- `BE(BUF[6..15])`, the payload of 16 bytes (R180). -/
def payloadOf (b : Vector Byte 16) : Payload := BitVec.ofNat 80 (be (b.toList.drop 6))

/-- `S2B`: the 26-character string to `BUF`; `VAL` is not written (R170). -/
def execS2b (s : State) : Host.Outcome State Fault Refusal :=
  .next (guarded (textReads s) (textOperand s) s fun v s1 => complete (putBuf (splitBytes v) s1))

/-- `DTIME`: the first ten characters to `TIME`, under either policy (R175 to R177). -/
def execDtime (s : State) : Host.Outcome State Fault Refusal :=
  .next (guarded (textTimeReads s) (textTimeOperand s) s fun t s1 =>
    complete (putTime (t.setWidth 64) s1))

/-- `UNPACK`: the 16 bytes of `BUF` to `TIME` (zero-extended) and `PAY` (R180). -/
def execUnpack (s : State) : Host.Outcome State Fault Refusal :=
  .next (guarded (binaryReads s) (binaryOperand s) s fun b s1 =>
    complete (putPay (payloadOf b) (putTime ((stampOf b).setWidth 64) s1)))

end Sys2Proof.Machine
end

