-- ==== Sys2Proof/Machine/EngineEncode.lean ====
section
/-!
DEFINITION. The ULID Engine's encode path (spec/41_engine_encode.md): `PACK`, `PACKS`, `PACKR`,
`GENS`, `GENR` and `B2S`.
-/

namespace Sys2Proof.Machine

/-- `PACK`: `TIME` and the binary payload `PAY` to `BUF` (R132). -/
def execPack (s : State) : Host.Outcome State Fault Refusal :=
  .next (guarded timeReads (ts48 s) s fun ts s1 =>
    guarded payReads (.ok s.pay) s1 fun p s2 => complete (putBuf (pack16 ts p) s2))

/-- `PACKS`: `TIME` and the override string `PSTR` to `BUF`; the timestamp is checked first (R140). -/
def execPacks (s : State) : Host.Outcome State Fault Refusal :=
  .next (guarded timeReads (ts48 s) s fun ts s1 =>
    guarded (payStrReads s) (payFromStr s) s1 fun p s2 => complete (putBuf (pack16 ts p) s2))

/-- `PACKR`: `TIME` and a draw to `BUF`; no draw when the timestamp fails (R145). -/
def execPackr (s : State) : Host.Outcome State Fault Refusal :=
  .next (guarded timeReads (ts48 s) s fun ts s1 =>
    withDraw s1 fun e s2 => complete (putBuf (pack16 ts (drawPayload e)) s2))

/-- `GENS`: as `PACKS`, rendered as text; `BUF` and `VAL` are not written (R150). -/
def execGens (s : State) : Host.Outcome State Fault Refusal :=
  .next (guarded timeReads (ts48 s) s fun ts s1 =>
    guarded (payStrReads s) (payFromStr s) s1 fun p s2 =>
      complete (putStr (enc26 (be16 (pack16 ts p))) s2))

/-- `GENR`: as `PACKR`, rendered as text; `BUF` and `VAL` are not written (R153). -/
def execGenr (s : State) : Host.Outcome State Fault Refusal :=
  .next (guarded timeReads (ts48 s) s fun ts s1 =>
    withDraw s1 fun e s2 => complete (putStr (enc26 (ts ++ drawPayload e)) s2))

/-- `B2S`: the 16 bytes of `BUF`, as one big-endian integer, to text (R160). -/
def execB2s (s : State) : Host.Outcome State Fault Refusal :=
  .next (guarded (binaryReads s) (binaryOperand s) s fun b s1 =>
    complete (putStr (enc26 (be16 b)) s1))

end Sys2Proof.Machine
end

