-- ==== Sys2Proof/Machine/Dispatch.lean ====
section
/-!
DEFINITION. What each command does once its word has been stored in `CMD`
(spec/30_encoding.md R82, spec/20_memory.md R64): one arm per command.
-/

namespace Sys2Proof.Machine

def exec (i : Instr) (s : State) : Host.Outcome State Fault Refusal :=
  match i with
  | .enc => Sys2Proof.Machine.execEnc s
  | .dec => Sys2Proof.Machine.execDec s
  | .pack => Sys2Proof.Machine.execPack s
  | .packs => Sys2Proof.Machine.execPacks s
  | .packr => Sys2Proof.Machine.execPackr s
  | .gens => Sys2Proof.Machine.execGens s
  | .genr => Sys2Proof.Machine.execGenr s
  | .b2s => Sys2Proof.Machine.execB2s s
  | .s2b => Sys2Proof.Machine.execS2b s
  | .dtime => Sys2Proof.Machine.execDtime s
  | .unpack => Sys2Proof.Machine.execUnpack s

end Sys2Proof.Machine
end

