-- ==== Sys2Proof/Machine/Access.lean ====
section
/-!
DEFINITION. One action of the outside world as the block takes it: a command word
(spec/20_memory.md R64), an access (R52 to R58), a reset (spec/70_reset_and_hazards.md R230).
-/

namespace Sys2Proof.Machine

/-- A write of `CMD`, one indivisible step: the word is stored, even an illegal one (R30), and the
command executed to completion; an illegal word raises `IllegalCommand` (R64, R81, R83, R205). -/
def runCommand (w : Word) (s : State) : Host.Outcome State Fault Refusal :=
  match decode w with
  | .instr i => exec i (writeReg .cmd w s)
  | .illegal _ => .next (raise .illegalCommand 0#5 0#32 (writeReg .cmd w s))

/-- One legal 32-bit write: a write of `CMD` executes a command, any other only stores (R58). -/
def performWrite (off : Offset) (v : Word) (s : State) : Host.Outcome State Fault Refusal :=
  if off = offsetOf .cmd then runCommand v s else .next (hostWrite off v s)

/-- One action. An access of another width or at a misaligned offset is a bus error, which the
spec treats as a fault of the model (R52 to R54, R206, R207). -/
def perform (a : HostAction) (s : State) : Host.Outcome State Fault Refusal :=
  match a with
  | .read width off =>
    if accessLegal width off then .next (hostRead off s) else .fault .busError
  | .write width off v =>
    if accessLegal width off then performWrite off v s else .fault .busError
  | .reset => .next (applyReset s)

/-- The next action of the outside world is taken off the list and performed; with none left the
run has ended and the block keeps its state (R248, R221; log 1). -/
def stepHost (s : State) : Host.Outcome State Fault Refusal :=
  match s.host with
  | [] => .next s
  | a :: rest => perform a (withHost rest s)

/-- The state whose next action is the write of the command word `w` to `CMD`: what the spec has
in place of a fetch (R68, R92; log 1). -/
def placeCommand (w : Word) (s : State) : State :=
  withHost (.write .w32 (offsetOf .cmd) w :: s.host) s

end Sys2Proof.Machine
end

