-- ==== Sys2Proof/Machine/Step.lean ====
section
/-!
DEFINITION. One step of the machine: the next action of the outside world, performed to completion
(spec/20_memory.md R64, R65). The block fetches nothing (R68): its next command is the next write
of `CMD` in the host's list.
-/

namespace Sys2Proof.Machine

/-- One step. -/
def step (s : State) : Host.Outcome State Fault Refusal := stepHost s

/-- `s` with the command word `w` (its `nbits` bits; those above are 0) as the next action. -/
def State.withFetchWord (s : State) (nbits w : Nat) : State :=
  placeCommand (BitVec.ofNat 32 (w % 2 ^ nbits)) s

end Sys2Proof.Machine
end

