-- ==== Sys2Proof/Machine/Strict.lean ====
section
/-!
DEFINITION. The strict reading of spec/10_state.md R36 beside `step`: a read of a word that
nothing has written since reset is a fault, by a command or by the host (R207, R248). `step`
records that fault in `faulted` and goes on (log 5).
-/

namespace Sys2Proof.Machine

/-- One step that stops with `unwrittenRead` where R36 says the access faults. A recorded fault is
never cleared, so a run that has faulted stays stopped (R207). -/
def strictStep (s : State) : Host.Outcome State Fault Refusal :=
  match step s with
  | .next t => if t.faulted then .fault .unwrittenRead else .next t
  | .fault r => .fault r
  | .refused r => .refused r

end Sys2Proof.Machine
end

