-- ==== Sys2Proof/Safety.lean ====
section
/-!
DEFINITION. The terms in which claims speak: a safe run, what stays the same, which words a command
reads and writes (spec/10_state.md R34), the invariant of the status registers, and the spec's
pictures of a text, of packed bytes and of an accepted timestamp.
-/

namespace Sys2Proof.Machine

/-- No model fault is recorded: the premise of every claim about a host program (R207, R249). -/
abbrev Safe (s : State) : Prop := s.faulted = false

/-- The block is as before: only the model's own record of the outside world may differ. -/
abbrev sameBlock (s t : State) : Prop :=
  { t with host := s.host, reads := s.reads, faulted := s.faulted } = s

/-- Everything is as before but `STATUS` and `ERRCHAR` (spec/60_exceptions.md R210), and the record
of a read of an unwritten word. -/
abbrev sameButStatus (s t : State) : Prop :=
  { t with err := s.err, errPos := s.errPos, errChar := s.errChar, faulted := s.faulted } = s

/-- A word of the window reads as before and is written or unwritten as before. -/
abbrev sameWord (s t : State) (r : Reg) : Prop :=
  readReg t r = readReg s r ∧ isWritten t r = isWritten s r

/-- `STATUS` and `ERRCHAR`, which every command writes (R28, R29). -/
def statusReg : Reg → Bool
  | .status | .errchar => true
  | _ => false

/-- `STR[0..25]` and `STRLEN`. -/
def textReg : Reg → Bool
  | .str _ | .strlen => true
  | _ => false

/-- `BUF` and `BUFLEN`. -/
def bufReg : Reg → Bool
  | .buf _ | .buflen => true
  | _ => false

/-- `TIME`. -/
def timeReg : Reg → Bool
  | .timeh | .timel => true
  | _ => false

/-- `VAL`. -/
def valReg : Reg → Bool
  | .val _ => true
  | _ => false

/-- `PAY`. -/
def payReg : Reg → Bool
  | .pay _ => true
  | _ => false

/-- `PSTR[0..15]` and `PSTRLEN`. -/
def payStrReg : Reg → Bool
  | .pstr _ | .pstrlen => true
  | _ => false

/-- `STRLEN` and the ten slots that `DTIME` may read (spec/42_engine_decode.md R175). -/
def textTimeReg : Reg → Bool
  | .str i => decide (i.val < 10)
  | .strlen => true
  | _ => false

/-- `CTRL`. -/
def ctrlReg : Reg → Bool
  | .ctrl => true
  | _ => false

/-- The words a command reads when it succeeds (R34, column "reads"). -/
def operandReg : Instr → Reg → Bool
  | .enc, r => valReg r
  | .dec, r => textReg r
  | .pack, r => ctrlReg r || timeReg r || payReg r
  | .packs, r => ctrlReg r || timeReg r || payStrReg r
  | .packr, r => ctrlReg r || timeReg r
  | .gens, r => ctrlReg r || timeReg r || payStrReg r
  | .genr, r => ctrlReg r || timeReg r
  | .b2s, r => bufReg r
  | .s2b, r => textReg r
  | .dtime, r => textTimeReg r
  | .unpack, r => bufReg r

/-- The words a command writes on success, beside `STATUS` and `ERRCHAR` (R34, column "writes on
success"). -/
def resultReg : Instr → Reg → Bool
  | .enc, r => textReg r
  | .dec, r => valReg r
  | .pack, r => bufReg r
  | .packs, r => bufReg r
  | .packr, r => bufReg r
  | .gens, r => textReg r
  | .genr, r => textReg r
  | .b2s, r => textReg r
  | .s2b, r => bufReg r
  | .dtime, r => timeReg r
  | .unpack, r => timeReg r || payReg r

/-- The invariant of `STATUS` and `ERRCHAR` (spec/10_state.md R28, R29; spec/60_exceptions.md R200
to R205): codes 6 to 15 are never written; a position and a character stand only beside the two
errors that report them, in range, and the character is one that error can name. -/
abbrev StatusInv (s : State) : Prop :=
  s.err.toNat ≤ 5 ∧
  (s.err = 2#4 → s.errPos.toNat < 26 ∧
    ∀ d ∈ idx s.errChar, s.errPos = 0#5 ∧ 8 ≤ d.toNat) ∧
  (s.err = 3#4 → s.errPos.toNat < 16 ∧ idx s.errChar = none) ∧
  (s.err ≠ 2#4 → s.err ≠ 3#4 → s.errPos = 0#5 ∧ s.errChar = 0#32)

/-- No error is reported: the status is 0, and so are `STATUS` and `ERRCHAR` as the host reads them
(R13, R28, R29). -/
abbrev noError (s : State) : Prop :=
  s.err = 0#4 ∧ s.errPos = 0#5 ∧ s.errChar = 0#32 ∧
  readReg s .status = 0#32 ∧ readReg s .errchar = 0#32

/-- The error of code `n` (spec/60_exceptions.md R200) is reported with its position and character:
in the status, and in `STATUS` as the host reads it, `ERR` in [3:0], `ERRPOS` in [12:8] and every
other bit 0 (R12, R28). -/
abbrev reports (s : State) (n pos : Nat) (ch : Word) : Prop :=
  s.err.toNat = n ∧ s.errPos.toNat = pos ∧ s.errChar = ch ∧
  (readReg s .status).toNat = pos * 2 ^ 8 + n ∧ readReg s .errchar = ch

/-- Between `s` and `t` the words that were read are those of `p`: a fault is newly recorded exactly
when one of them was unwritten (R34, R36; log 5). -/
abbrev readsExactly (s t : State) (p : Reg → Prop) : Prop :=
  t.faulted = false ↔ s.faulted = false ∧ ∀ r, p r → isWritten s r = true

/-- The 26 slots hold the text of `v`: character `i` is the symbol of `v[129-5i : 125-5i]`
(spec/30_encoding.md R89). -/
abbrev TextOf (v : Value) (w : Vector Word 26) : Prop :=
  ∀ i : Fin 26, w[i.val] = code ((v.setWidth 130).extractLsb' (125 - 5 * i.val) 5)

/-- The 16 bytes are the timestamp and the payload, each most significant byte first
(spec/20_memory.md R61, spec/41_engine_encode.md R131). -/
abbrev PackedBytes (ts : Stamp) (p : Payload) (b : Vector Byte 16) : Prop :=
  (∀ k : Fin 6, b[k.val] = ts.extractLsb' (40 - 8 * k.val) 8) ∧
  (∀ k : Fin 10, b[6 + k.val] = p.extractLsb' (72 - 8 * k.val) 8)

/-- The 16 slots hold the digits of the payload (spec/41_engine_encode.md R135). -/
abbrev OverrideOf (p : Payload) (w : Vector Word 16) : Prop :=
  ∀ j : Fin 16, w[j.val] = code (p.extractLsb' (75 - 5 * j.val) 5)

/-- `TIME` passes the policy in force: TRUNCATE, or REJECT and within 0 to 2^48 - 1 (R130). -/
abbrev acceptsTime (s : State) : Prop :=
  s.tspol = 1#1 ∨ (0 ≤ s.time.toInt ∧ s.time.toInt ≤ 2 ^ 48 - 1)

/-- The low 48 bits of `TIME` (R130). -/
abbrev lowStamp (s : State) : Stamp := s.time.extractLsb' 0 48

/-- Slot `i` of a 26-character text passes the check of `DEC` and `S2B` (R105, R106). -/
def textSlotOk (w : Vector Word 26) (i : Fin 26) : Bool :=
  (idx w[i.val]).any fun d => decide (i.val ≠ 0 ∨ d.toNat ≤ 7)

/-- The codes of two texts compared slot by slot, the first slot first (R108). -/
def textLt (a b : Vector Word 26) : Prop :=
  ∃ i : Fin 26, (∀ k : Fin 26, k.val < i.val → a[k.val] = b[k.val]) ∧ a[i.val] < b[i.val]

/-- The bytes of two buffers compared byte by byte, the first byte first (R163). -/
def bytesLt (a b : Vector Byte 16) : Prop :=
  ∃ i : Fin 16, (∀ k : Fin 16, k.val < i.val → a[k.val] = b[k.val]) ∧ a[i.val] < b[i.val]

end Sys2Proof.Machine
end

