-- ==== Sys2Proof/Certificates/Slice0/Obligations.lean ====
section
/-!
DEFINITION. The statements for the provers, one per definition, drawn from the numbered rules of
spec/. None rests on a value the model chose. Where a rule is the spec's own inference (its text says
"derived"), the docstring's rule number only says where the law stands.
-/

open Sys2Proof Sys2Proof.Machine

/-! Reset. -/

/-- R37: after reset `CMD`, `STATUS`, `ERRCHAR` and `CTRL` read 0, `ALPHA` reads its constants, and
every operand word is unwritten. -/
def Obligations.ResetRegisters : Prop :=
  readReg State.reset .cmd = 0#32 ∧ readReg State.reset .status = 0#32 ∧
  readReg State.reset .errchar = 0#32 ∧ readReg State.reset .ctrl = 0#32 ∧
  (∀ k : Fin 32, readReg State.reset (.alpha k) = code (BitVec.ofNat 5 k.val)) ∧
  (∀ r : Reg, (valReg r || bufReg r || textReg r || payStrReg r || timeReg r || payReg r) = true →
    isWritten State.reset r = false)

/-- R28, R29, R200: the status registers' invariant holds after reset. -/
def Obligations.ResetMeetsStatusInvariant : Prop := StatusInv State.reset

/-- R230: reset taken as a step, from every state, sets `CMD`, `STATUS`, `ERRCHAR` and `CTRL` to 0,
clears every operand word's written bit, and keeps `ALPHA`; the actions after it stay on the host's
list (log 1). -/
def Obligations.ResetStep : Prop :=
  ∀ (s : State) (rest : List HostAction), s.host = .reset :: rest →
    ∃ t, step s = .next t ∧
      readReg t .cmd = 0#32 ∧ readReg t .status = 0#32 ∧ readReg t .errchar = 0#32 ∧
      readReg t .ctrl = 0#32 ∧
      (∀ k : Fin 32, readReg t (.alpha k) = code (BitVec.ofNat 5 k.val)) ∧
      (∀ r : Reg, (valReg r || bufReg r || textReg r || payStrReg r || timeReg r || payReg r) = true →
        isWritten t r = false) ∧
      t.host = rest

/-- R86: the 32 words of `ALPHA` read as the codes that the alphabet table lists (log 9). -/
def Obligations.AlphabetTable : Prop :=
  ∀ s : State, (List.finRange 32).map (fun k => readReg s (.alpha k)) =
    [0x30#32, 0x31#32, 0x32#32, 0x33#32, 0x34#32, 0x35#32, 0x36#32, 0x37#32, 0x38#32, 0x39#32,
      0x41#32, 0x42#32, 0x43#32, 0x44#32, 0x45#32, 0x46#32, 0x47#32, 0x48#32, 0x4A#32, 0x4B#32,
      0x4D#32, 0x4E#32, 0x50#32, 0x51#32, 0x52#32, 0x53#32, 0x54#32, 0x56#32, 0x57#32, 0x58#32,
      0x59#32, 0x5A#32]

/-! Invariants of every step. -/

/-- R28, R29, R200 to R205: every step keeps the status registers' invariant: no reserved code is
ever written, and a position and a character stand only beside the errors that report them. -/
def Obligations.StepKeepsStatusInvariant : Prop :=
  ∀ s t : State, StatusInv s → step s = .next t → StatusInv t

/-- R36, R207: no step but reset clears a written bit, and no step clears a recorded fault. That a
read of an unwritten word is recorded, and the run goes on, is the model's choice (log 5). -/
def Obligations.StepKeepsWrittenAndFault : Prop :=
  ∀ s t : State, step s = .next t →
    (s.faulted = true → t.faulted = true) ∧
    (s.host.head? ≠ some .reset → ∀ r, isWritten s r = true → isWritten t r = true)

/-! The command word. -/

/-- R80 to R82: for every word and every command, the word decodes to the command exactly when it is
the command's encoding; so decoding an encoded command gives it back. -/
def Obligations.DecodeExactlyEncoded : Prop :=
  ∀ (w : Word) (i : Instr), decode w = .instr i ↔ w = encode i

/-- R81: every word decodes to one of the commands or to an illegal word, as the pseudocode says. -/
def Obligations.DecodeTotal : Prop :=
  ∀ w : Word,
    (w.extractLsb' 8 24 ≠ 0#24 → ∃ r, decode w = .illegal r) ∧
    (w.extractLsb' 8 24 = 0#24 →
      (1 ≤ (w.extractLsb' 0 8).toNat ∧ (w.extractLsb' 0 8).toNat ≤ 11 →
        ∃ i, decode w = .instr i ∧ opcode i = w.extractLsb' 0 8) ∧
      (¬(1 ≤ (w.extractLsb' 0 8).toNat ∧ (w.extractLsb' 0 8).toNat ≤ 11) →
        ∃ r, decode w = .illegal r))

/-- R82: some words written out bit by bit decode to the command, or to the reason for refusing them,
that the opcode map gives. -/
def Obligations.DecodeWrittenOutWords : Prop :=
  decode 0b00000000000000000000000000000001#32 = .instr .enc ∧
  decode 0b00000000000000000000000000000010#32 = .instr .dec ∧
  decode 0b00000000000000000000000000000100#32 = .instr .packs ∧
  decode 0b00000000000000000000000000001000#32 = .instr .b2s ∧
  decode 0b00000000000000000000000000001011#32 = .instr .unpack ∧
  decode 0b00000000000000000000000000000000#32 = .illegal .undefinedOp ∧
  decode 0b00000000000000000000000000001100#32 = .illegal .undefinedOp ∧
  decode 0b00000000000000000000000100000001#32 = .illegal .reservedBits

/-- R64: a step at a write of `CMD` whose word decodes to a command stores the word and runs that
command, with the write taken off the host's list (log 1). -/
def Obligations.StepRunsDecodedCommand : Prop :=
  ∀ (s : State) (rest : List HostAction) (w : Word) (i : Instr),
    s.host = .write .w32 0x000#12 w :: rest → decode w = .instr i →
      step s = exec i { s with host := rest, cmd := w }

/-- R83, R205: a step at a write of a word with a reserved bit set, or with `OP` 0x00 or 0x0C to
0xFF, keeps the word in `CMD`, reports `IllegalCommand` (code 5) with position and character 0, and
changes nothing else. -/
def Obligations.IllegalCommandStep : Prop :=
  ∀ (s : State) (rest : List HostAction) (w : Word),
    s.host = .write .w32 0x000#12 w :: rest →
    (w.extractLsb' 8 24 ≠ 0#24 ∨ w.extractLsb' 0 8 = 0x00#8 ∨ 0x0C#8 ≤ w.extractLsb' 0 8) →
      ∃ t, step s = .next t ∧ reports t 5 0 0#32 ∧
        t = { s with host := rest, cmd := w, err := 5#4, errPos := 0#5, errChar := 0#32 }

/-- R215: no command hangs: every command answers a next state in every state, and every write of
`CMD`, whatever its word, completes. -/
def Obligations.EveryCommandCompletes : Prop :=
  (∀ (i : Instr) (s : State), ∃ t, exec i s = .next t) ∧
  (∀ (s : State) (rest : List HostAction) (w : Word), s.host = .write .w32 0x000#12 w :: rest →
    ∃ t, step s = .next t ∧ t.host = rest ∧ t.cmd = w)

/-! The commands: the result of each, where it succeeds. -/

/-- R101: `ENC` encodes every value: the 26 characters of `VAL`, `STRLEN` 26, no error. -/
def Obligations.EncWritesText : Prop :=
  ∀ s : State, ∃ t, exec .enc s = .next t ∧ TextOf s.val t.str ∧ t.strlen = 26#32 ∧ noError t

/-- R105: `DEC` of a valid string of length 26 gives the value whose text the string is. -/
def Obligations.DecWritesValue : Prop :=
  ∀ s : State, s.strlen = 26#32 → validText s.str = true →
    ∃ t, exec .dec s = .next t ∧ TextOf t.val s.str ∧ noError t

/-- R132: `PACK` of an accepted timestamp writes its low 48 bits and the payload, `BUFLEN` 16. -/
def Obligations.PackWritesBytes : Prop :=
  ∀ s : State, acceptsTime s →
    ∃ t, exec .pack s = .next t ∧ PackedBytes (lowStamp s) s.pay t.buf ∧ t.buflen = 16#32 ∧ noError t

/-- R140: `PACKS` of an accepted timestamp and 16 alphabet characters writes the timestamp and the
payload those characters spell. -/
def Obligations.PacksWritesBytes : Prop :=
  ∀ s : State, acceptsTime s → s.pstrlen = 16#32 → (∀ j : Fin 16, (idx s.pstr[j.val]).isSome) →
    ∃ t p, exec .packs s = .next t ∧ OverrideOf p s.pstr ∧
      PackedBytes (lowStamp s) p t.buf ∧ t.buflen = 16#32 ∧ noError t

/-- R145: `PACKR` of an accepted timestamp takes one draw `E` and writes the timestamp and then
`BUF[6+k] = E[k]`. It holds for every value of the draw (log 2). -/
def Obligations.PackrWritesBytes : Prop :=
  ∀ s : State, acceptsTime s →
    ∃ t, exec .packr s = .next t ∧
      (∀ k : Fin 6, t.buf[k.val] = (lowStamp s).extractLsb' (40 - 8 * k.val) 8) ∧
      (∀ k : Fin 10, t.buf[6 + k.val] = (Config.entropyDraw s.draws)[k.val]) ∧
      t.draws = s.draws + 1 ∧ t.buflen = 16#32 ∧ noError t

/-- R150: `GENS` of an accepted timestamp and 16 alphabet characters writes the text of the
timestamp and the payload those characters spell. -/
def Obligations.GensWritesText : Prop :=
  ∀ s : State, acceptsTime s → s.pstrlen = 16#32 → (∀ j : Fin 16, (idx s.pstr[j.val]).isSome) →
    ∃ t p, exec .gens s = .next t ∧ OverrideOf p s.pstr ∧
      TextOf (lowStamp s ++ p) t.str ∧ t.strlen = 26#32 ∧ noError t

/-- R153: `GENR` of an accepted timestamp takes one draw `E` and writes the text of the timestamp and
the payload whose byte `k` is `E[k]`. It holds for every value of the draw (log 2). -/
def Obligations.GenrWritesText : Prop :=
  ∀ s : State, acceptsTime s →
    ∃ (t : State) (p : Payload), exec .genr s = .next t ∧
      (∀ k : Fin 10, p.extractLsb' (72 - 8 * k.val) 8 = (Config.entropyDraw s.draws)[k.val]) ∧
      TextOf (lowStamp s ++ p) t.str ∧ t.draws = s.draws + 1 ∧ t.strlen = 26#32 ∧ noError t

/-- R160: `B2S` of any 16 bytes with `BUFLEN` 16 writes the text of their timestamp and payload. -/
def Obligations.B2sWritesText : Prop :=
  ∀ s : State, s.buflen = 16#32 →
    ∃ t ts p, exec .b2s s = .next t ∧ PackedBytes ts p s.buf ∧
      TextOf (ts ++ p) t.str ∧ t.strlen = 26#32 ∧ noError t

/-- R170: `S2B` of a valid string of length 26 writes the bytes of the value whose text it is. -/
def Obligations.S2bWritesBytes : Prop :=
  ∀ s : State, s.strlen = 26#32 → validText s.str = true →
    ∃ t ts p, exec .s2b s = .next t ∧ TextOf (ts ++ p) s.str ∧
      PackedBytes ts p t.buf ∧ t.buflen = 16#32 ∧ noError t

/-- R175: `DTIME` of a string of length 26 whose first ten characters are in the alphabet, the first
of them at most 7, gives the 48-bit timestamp those ten characters spell, zero-extended. -/
def Obligations.DtimeWritesTime : Prop :=
  ∀ s : State, s.strlen = 26#32 → (∀ i : Fin 26, i.val < 10 → textSlotOk s.str i = true) →
    ∃ (t : State) (ts : Stamp), exec .dtime s = .next t ∧
      (∀ i : Fin 10, s.str[i.val] = code ((ts.setWidth 50).extractLsb' (45 - 5 * i.val) 5)) ∧
      t.time = ts.setWidth 64 ∧ noError t

/-- R180: `UNPACK` of any 16 bytes with `BUFLEN` 16 gives their timestamp, zero-extended, and their
payload. -/
def Obligations.UnpackWritesFields : Prop :=
  ∀ s : State, s.buflen = 16#32 →
    ∃ t ts p, exec .unpack s = .next t ∧ PackedBytes ts p s.buf ∧
      t.time = ts.setWidth 64 ∧ t.pay = p ∧ noError t

/-! The errors: where each command fails, what it reports, and that nothing else changes. -/

/-- R130, R204, R208: under REJECT a `TIME` that is negative or above 2^48 - 1 makes each generating
command report `TimestampOutOfRange` (code 4), before any other check and with no draw. It has then
read `TIME` and no payload register (R34; the record of the fault is log 5). -/
def Obligations.TimestampRejected : Prop :=
  ∀ s : State, s.tspol = 0#1 → (s.time.toInt < 0 ∨ 2 ^ 48 - 1 < s.time.toInt) →
    ∀ i ∈ [Instr.pack, .packs, .packr, .gens, .genr],
      ∃ t, exec i s = .next t ∧ reports t 4 0 0#32 ∧ sameButStatus s t ∧
        readsExactly s t (fun r => timeReg r = true)

/-- R135, R136, R203, R208: with an accepted timestamp, `PACKS` and `GENS` report
`InvalidPayloadEncoding` (code 3) for a length other than 16, having read no slot, and else for the
first slot outside the alphabet, with its index and its code, having read no slot after it (R34; the
record of the fault is log 5). -/
def Obligations.PayloadRejected : Prop :=
  ∀ s : State, acceptsTime s → ∀ i ∈ [Instr.packs, .gens],
    (s.pstrlen ≠ 16#32 →
      ∃ t, exec i s = .next t ∧ reports t 3 0 0#32 ∧ sameButStatus s t ∧
        readsExactly s t (fun r => timeReg r = true ∨ r = .pstrlen)) ∧
    (s.pstrlen = 16#32 → ∀ j : Fin 16, idx s.pstr[j.val] = none →
      (∀ k : Fin 16, k.val < j.val → (idx s.pstr[k.val]).isSome) →
      ∃ t, exec i s = .next t ∧ reports t 3 j.val s.pstr[j.val] ∧ sameButStatus s t ∧
        readsExactly s t (fun r =>
          timeReg r = true ∨ r = .pstrlen ∨ ∃ k : Fin 16, k.val ≤ j.val ∧ r = .pstr k))

/-- R105, R106, R170, R202, R208: `DEC` and `S2B` report `InvalidLength` (code 1) for a length other
than 26, having read no slot, and else `InvalidCharacter` (code 2) for the first slot that is outside
the alphabet or, at slot 0, of value 8 or more, with its index and its code, having read no slot
after it (R34; the record of the fault is log 5). -/
def Obligations.TextRejected : Prop :=
  ∀ s : State, ∀ c ∈ [Instr.dec, .s2b],
    (s.strlen ≠ 26#32 →
      ∃ t, exec c s = .next t ∧ reports t 1 0 0#32 ∧ sameButStatus s t ∧
        readsExactly s t (fun r => r = .strlen)) ∧
    (s.strlen = 26#32 → ∀ i : Fin 26, textSlotOk s.str i = false →
      (∀ k : Fin 26, k.val < i.val → textSlotOk s.str k = true) →
      ∃ t, exec c s = .next t ∧ reports t 2 i.val s.str[i.val] ∧ sameButStatus s t ∧
        readsExactly s t (fun r => r = .strlen ∨ ∃ k : Fin 26, k.val ≤ i.val ∧ r = .str k))

/-- R175, R177, R208: `DTIME` reports `InvalidLength` (code 1) for a length other than 26, having
read no slot, else `InvalidCharacter` (code 2) for the first of slots 0 to 9 outside the alphabet,
having read no slot after it, else `TimestampOutOfRange` (code 4) when the first character's value is
8 or more, having read slots 0 to 9 (R34; the record of the fault is log 5). -/
def Obligations.TextTimeRejected : Prop :=
  ∀ s : State,
    (s.strlen ≠ 26#32 →
      ∃ t, exec .dtime s = .next t ∧ reports t 1 0 0#32 ∧ sameButStatus s t ∧
        readsExactly s t (fun r => r = .strlen)) ∧
    (s.strlen = 26#32 → ∀ i : Fin 26, i.val < 10 → idx s.str[i.val] = none →
      (∀ k : Fin 26, k.val < i.val → (idx s.str[k.val]).isSome) →
      ∃ t, exec .dtime s = .next t ∧ reports t 2 i.val s.str[i.val] ∧ sameButStatus s t ∧
        readsExactly s t (fun r => r = .strlen ∨ ∃ k : Fin 26, k.val ≤ i.val ∧ r = .str k)) ∧
    (s.strlen = 26#32 → (∀ i : Fin 26, i.val < 10 → (idx s.str[i.val]).isSome) →
      textSlotOk s.str 0 = false →
      ∃ t, exec .dtime s = .next t ∧ reports t 4 0 0#32 ∧ sameButStatus s t ∧
        readsExactly s t (fun r => textTimeReg r = true))

/-- R160, R180, R201: `B2S` and `UNPACK` report `InvalidLength` (code 1) when `BUFLEN` is not 16,
having read no word of `BUF` (R34; the record of the fault is log 5). -/
def Obligations.BinaryLengthRejected : Prop :=
  ∀ s : State, s.buflen ≠ 16#32 → ∀ i ∈ [Instr.b2s, .unpack],
    ∃ t, exec i s = .next t ∧ reports t 1 0 0#32 ∧ sameButStatus s t ∧
      readsExactly s t (fun r => r = .buflen)

/-- R210: a failing command leaves the state as it was but for `STATUS` and `ERRCHAR`. -/
def Obligations.ErrorsArePrecise : Prop :=
  ∀ (i : Instr) (s t : State), exec i s = .next t → t.err ≠ 0#4 → sameButStatus s t

/-- R214: a command that fails, repeated with the same operands, fails the same way and changes
nothing more. -/
def Obligations.ErrorsAreNotTransient : Prop :=
  ∀ (i : Instr) (s t : State), exec i s = .next t → t.err ≠ 0#4 → exec i t = .next t

/-! Frames: what a command leaves unchanged. -/

/-- R34: `ENC`, `GENS`, `GENR` and `B2S` change no word of the window but `STR`, `STRLEN`, `STATUS`
and `ERRCHAR`; `VAL` and `BUF` among the rest. -/
def Obligations.TextCommandsFrame : Prop :=
  ∀ i ∈ [Instr.enc, .gens, .genr, .b2s], ∀ s t : State, exec i s = .next t →
    (∀ r, textReg r = false → statusReg r = false → sameWord s t r) ∧
    t.host = s.host ∧ t.reads = s.reads

/-- R34: `PACK`, `PACKS`, `PACKR` and `S2B` change no word of the window but `BUF`, `BUFLEN`,
`STATUS` and `ERRCHAR`; `VAL` among the rest. -/
def Obligations.BufferCommandsFrame : Prop :=
  ∀ i ∈ [Instr.pack, .packs, .packr, .s2b], ∀ s t : State, exec i s = .next t →
    (∀ r, bufReg r = false → statusReg r = false → sameWord s t r) ∧
    t.host = s.host ∧ t.reads = s.reads

/-- R34: `DEC` changes no word of the window but `VAL`, `DTIME` none but `TIME`, `UNPACK` none but
`TIME` and `PAY`, each beside `STATUS` and `ERRCHAR`. -/
def Obligations.FieldCommandsFrame : Prop :=
  ∀ s t : State,
    (exec .dec s = .next t → ∀ r, valReg r = false → statusReg r = false → sameWord s t r) ∧
    (exec .dtime s = .next t → ∀ r, timeReg r = false → statusReg r = false → sameWord s t r) ∧
    (exec .unpack s = .next t →
      ∀ r, (timeReg r || payReg r) = false → statusReg r = false → sameWord s t r) ∧
    (∀ i ∈ [Instr.dec, .dtime, .unpack], exec i s = .next t → t.host = s.host ∧ t.reads = s.reads)

/-- R33, R145, R153: only `PACKR` and `GENR` draw, one draw when they succeed and none when they
fail. The counter of draws is the model's own (log 2). -/
def Obligations.DrawsOnlyOnRandomSuccess : Prop :=
  ∀ (i : Instr) (s t : State), exec i s = .next t →
    t.draws = s.draws + (if (i = .packr ∨ i = .genr) ∧ t.err = 0#4 then 1 else 0)

/-- R35: a command's outcome is a function of the words it reads and, for `PACKR` and `GENR`, the
draw: two states that agree on them agree on the error reported and, on success, on every result. -/
def Obligations.OutcomeDependsOnOperandsOnly : Prop :=
  ∀ (i : Instr) (s s' t t' : State),
    (∀ r, operandReg i r = true → readReg s r = readReg s' r) →
    (i = .packr ∨ i = .genr → Config.entropyDraw s.draws = Config.entropyDraw s'.draws) →
    exec i s = .next t → exec i s' = .next t' →
      t.err = t'.err ∧ t.errPos = t'.errPos ∧ t.errChar = t'.errChar ∧
      (t.err = 0#4 → ∀ r, resultReg i r = true → readReg t r = readReg t' r)

/-- R60: repeating a command other than `PACKR` and `GENR` gives the same state again, and so does
repeating a write of a register. -/
def Obligations.RepeatsChangeNothing : Prop :=
  (∀ (i : Instr) (s t : State), i ≠ .packr → i ≠ .genr → exec i s = .next t → exec i t = .next t) ∧
  (∀ (r : Reg) (v : Word) (s : State), writeReg r v (writeReg r v s) = writeReg r v s)

/-! Unwritten words. -/

/-- R34, R36: a command that succeeds has recorded no new fault exactly when every word it reads was
written, and every word of its results is then written. The record of the fault is log 5. -/
def Obligations.SuccessReadsWrittenOperands : Prop :=
  ∀ (i : Instr) (s t : State), exec i s = .next t → t.err = 0#4 →
    (t.faulted = false ↔
      s.faulted = false ∧ ∀ r, operandReg i r = true → isWritten s r = true) ∧
    ∀ r, resultReg i r = true → isWritten t r = true

/-- R34, R36, R104, R175: with `STRLEN` written, `DEC`, `S2B` and `DTIME` read no slot when the length
is wrong, and a check that stops at slot `i` has read slots 0 to `i` and none after it; `DTIME` reads
slots 0 to 9 when all ten are in the alphabet, and no slot from 10 on in any case. A slot that is not
read records no fault if unwritten (log 5). -/
def Obligations.TextReadsStopAtFirstBadSlot : Prop :=
  ∀ (s t : State), s.faulted = false → isWritten s .strlen = true →
    (∀ c ∈ [Instr.dec, .s2b, .dtime], s.strlen ≠ 26#32 → exec c s = .next t → t.faulted = false) ∧
    (∀ c ∈ [Instr.dec, .s2b], s.strlen = 26#32 → exec c s = .next t →
      ∀ i : Fin 26, textSlotOk s.str i = false →
        (∀ k : Fin 26, k.val < i.val → textSlotOk s.str k = true) →
        (t.faulted = false ↔ ∀ k : Fin 26, k.val ≤ i.val → isWritten s (.str k) = true)) ∧
    (s.strlen = 26#32 → exec .dtime s = .next t →
      ∀ i : Fin 26, i.val < 10 → idx s.str[i.val] = none →
        (∀ k : Fin 26, k.val < i.val → (idx s.str[k.val]).isSome) →
        (t.faulted = false ↔ ∀ k : Fin 26, k.val ≤ i.val → isWritten s (.str k) = true)) ∧
    (s.strlen = 26#32 → exec .dtime s = .next t →
      (∀ i : Fin 26, i.val < 10 → (idx s.str[i.val]).isSome) →
      (t.faulted = false ↔ ∀ k : Fin 26, k.val < 10 → isWritten s (.str k) = true)) ∧
    ((∀ i : Fin 26, i.val < 10 → isWritten s (.str i) = true) → exec .dtime s = .next t →
      t.faulted = false)

/-- R36, D34: in the strict reading (log 5) a host read of an unwritten word faults, and of a written one
returns the word's value. -/
def Obligations.StrictHostRead : Prop :=
  ∀ (s : State) (rest : List HostAction) (r : Reg), s.faulted = false →
    s.host = .read .w32 (offsetOf r) :: rest →
    (isWritten s r = false → strictStep s = .fault .unwrittenRead) ∧
    (isWritten s r = true →
      strictStep s = .next { s with host := rest, reads := s.reads ++ [readReg s r] })

/-- R36: in the strict reading (log 5) `ENC` with an unwritten `VAL` word faults instead of
completing. -/
def Obligations.StrictEncFaults : Prop :=
  ∀ (s : State) (rest : List HostAction) (w : Fin 4),
    s.host = .write .w32 0x000#12 0x00000001#32 :: rest → isWritten s (.val w) = false →
      strictStep s = .fault .unwrittenRead

/-! The laws of the codec and of the engine. -/

/-- R100: the closed form the model encodes by is what the pseudocode's loop computes. -/
def Obligations.EncodingLoopIsClosedForm : Prop :=
  ∀ v : Value, enc26ByLoop v = enc26 v

/-- R103: the valid ULID strings are exactly the texts of the 2^128 values, each of one value. -/
def Obligations.ValidTextsAreEncodings : Prop :=
  ∀ w : Vector Word 26,
    (validText w = true ↔ ∃ v : Value, w = enc26 v) ∧
    ∀ v v' : Value, enc26 v = enc26 v' → v = v'

/-- R107: `DEC` after `ENC` gives `VAL` back, and `ENC` after `DEC` of a valid string gives the
string back. -/
def Obligations.CodecRoundTrip : Prop :=
  (∀ s t u : State, exec .enc s = .next t → exec .dec t = .next u → noError u ∧ u.val = s.val) ∧
  (∀ s t u : State, s.strlen = 26#32 → validText s.str = true →
    exec .dec s = .next t → exec .enc t = .next u → noError u ∧ u.str = s.str)

/-- R108: the order of values is the lexicographic order of their texts by code. -/
def Obligations.TextOrderIsValueOrder : Prop :=
  ∀ v w : Value, v < w ↔ textLt (enc26 v) (enc26 w)

/-- R182: `B2S` then `S2B` gives the 16 bytes back, and `S2B` then `B2S` a valid string. -/
def Obligations.BinaryTextRoundTrip : Prop :=
  (∀ s t u : State, s.buflen = 16#32 → exec .b2s s = .next t → exec .s2b t = .next u →
    noError u ∧ u.buf = s.buf) ∧
  (∀ s t u : State, s.strlen = 26#32 → validText s.str = true →
    exec .s2b s = .next t → exec .b2s t = .next u → noError u ∧ u.str = s.str)

/-- R183: `DTIME` on the text of a successful `GENS` or `GENR` gives the timestamp field back. -/
def Obligations.TimestampExtraction : Prop :=
  ∀ i ∈ [Instr.gens, .genr], ∀ s t u : State, exec i s = .next t → t.err = 0#4 →
    exec .dtime t = .next u →
      noError u ∧ u.time = (lowStamp s).setWidth 64 ∧ (s.tspol = 0#1 → u.time = s.time)

/-- R184: `UNPACK` after a successful `PACK` gives the timestamp field and the payload back, and
`PACK` under REJECT after `UNPACK` gives the 16 bytes back. -/
def Obligations.PackUnpackRoundTrip : Prop :=
  (∀ s t u : State, exec .pack s = .next t → t.err = 0#4 → exec .unpack t = .next u →
    noError u ∧ u.time = (lowStamp s).setWidth 64 ∧ u.pay = s.pay) ∧
  (∀ s t u : State, s.buflen = 16#32 → exec .unpack s = .next t →
    exec .pack { t with tspol := 0#1 } = .next u → noError u ∧ u.buf = s.buf)

/-- R163: a smaller timestamp field gives a smaller text, whatever the payloads, and smaller bytes. -/
def Obligations.TimestampOrder : Prop :=
  ∀ s s' t t' : State, (lowStamp s).toNat < (lowStamp s').toNat →
    (∀ i ∈ [Instr.gens, .genr], ∀ i' ∈ [Instr.gens, .genr],
      exec i s = .next t → exec i' s' = .next t' → t.err = 0#4 → t'.err = 0#4 →
      textLt t.str t'.str) ∧
    (∀ i ∈ [Instr.pack, .packs, .packr], ∀ i' ∈ [Instr.pack, .packs, .packr],
      exec i s = .next t → exec i' s' = .next t' → t.err = 0#4 → t'.err = 0#4 →
      bytesLt t.buf t'.buf)

/-- R151: the text of a successful `GENS` is the ten characters of the timestamp and then the
override's own codes. -/
def Obligations.GensKeepsOverrideCharacters : Prop :=
  ∀ s t : State, exec .gens s = .next t → t.err = 0#4 →
    (∀ i : Fin 26, i.val < 10 → t.str[i.val] = (enc26 (lowStamp s ++ 0#80))[i.val]) ∧
    (∀ j : Fin 16, t.str[10 + j.val] = s.pstr[j.val])

/-- R171: the two big-endian halves together are the big-endian 16 bytes. -/
def Obligations.HalvesAreBigEndian : Prop := ∀ v : Value, splitBytes v = beBytes 16 v

/-! The window. -/

/-- R51: the register map: every register's offset, as the table gives it; each register answers at
its offset and at no other aligned one. -/
def Obligations.RegisterMap : Prop :=
  (∀ r : Reg, regAt (offsetOf r) = some r ∧ (offsetOf r).toNat % 4 = 0) ∧
  (∀ (off : Offset) (r : Reg), off.toNat % 4 = 0 → regAt off = some r → off = offsetOf r) ∧
  (offsetOf .cmd = 0x000#12 ∧ offsetOf .status = 0x004#12 ∧ offsetOf .errchar = 0x008#12 ∧
    offsetOf .ctrl = 0x00C#12) ∧
  (offsetOf (.val 0) = 0x010#12 ∧ offsetOf (.val 1) = 0x014#12 ∧ offsetOf (.val 2) = 0x018#12 ∧
    offsetOf (.val 3) = 0x01C#12) ∧
  (offsetOf (.buf 0) = 0x020#12 ∧ offsetOf (.buf 1) = 0x024#12 ∧ offsetOf (.buf 2) = 0x028#12 ∧
    offsetOf (.buf 3) = 0x02C#12) ∧
  (offsetOf .buflen = 0x030#12 ∧ offsetOf .strlen = 0x034#12 ∧ offsetOf .pstrlen = 0x038#12) ∧
  (offsetOf .timeh = 0x040#12 ∧ offsetOf .timel = 0x044#12) ∧
  (offsetOf (.pay 0) = 0x048#12 ∧ offsetOf (.pay 1) = 0x04C#12 ∧ offsetOf (.pay 2) = 0x050#12) ∧
  (∀ i : Fin 26, (offsetOf (.str i)).toNat = 0x100 + 4 * i.val) ∧
  (∀ j : Fin 16, (offsetOf (.pstr j)).toNat = 0x180 + 4 * j.val) ∧
  (∀ k : Fin 32, (offsetOf (.alpha k)).toNat = 0x200 + 4 * k.val)

/-- R52 to R54, R206: an access that is not 32 bits wide or not aligned is a bus error: the step
faults and gives no next state. -/
def Obligations.BusErrors : Prop :=
  ∀ (s : State) (rest : List HostAction) (a : HostAction), s.host = a :: rest →
    (a.wellFormed = false ↔ step s = .fault .busError)

/-- R55: an aligned 32-bit read of a reserved offset returns 0 and a write to one changes nothing of
the block; neither is an error. -/
def Obligations.ReservedOffsets : Prop :=
  ∀ (s : State) (rest : List HostAction) (off : Offset), off.toNat % 4 = 0 → regAt off = none →
    (s.host = .read .w32 off :: rest →
      step s = .next { s with host := rest, reads := s.reads ++ [0#32] }) ∧
    (∀ v, s.host = .write .w32 off v :: rest → step s = .next { s with host := rest })

/-- R56: a write to `STATUS`, `ERRCHAR` or `ALPHA` changes nothing. -/
def Obligations.ReadOnlyWrites : Prop :=
  ∀ (s : State) (rest : List HostAction) (r : Reg) (v : Word),
    (r = .status ∨ r = .errchar ∨ ∃ k, r = .alpha k) →
    s.host = .write .w32 (offsetOf r) v :: rest → step s = .next { s with host := rest }

/-- R57: a read-write register reads a written word back whole, but for the reserved bits of `CTRL`
and `PAY0`, which read 0 in every state; what those two store is `v[0]` and `v[15:0]`. The word is
then written (R36). -/
def Obligations.WrittenWordReadsBack : Prop :=
  ∀ (s : State) (v : Word),
    (∀ r : Reg, r ≠ .status → r ≠ .errchar → (∀ k, r ≠ .alpha k) →
      readReg (writeReg r v s) r =
        (if r = .ctrl then v &&& 1#32 else if r = .pay 0 then v &&& 0xFFFF#32 else v) ∧
      isWritten (writeReg r v s) r = true) ∧
    (readReg s .ctrl).extractLsb' 1 31 = 0#31 ∧ (readReg s (.pay 0)).extractLsb' 16 16 = 0#16 ∧
    (writeReg .ctrl v s).tspol = v.extractLsb' 0 1 ∧
    (writeReg (.pay 0) v s).pay.extractLsb' 64 16 = v.extractLsb' 0 16

/-- R58, R59: a host write of one word leaves every other word of the window as it was. -/
def Obligations.WriteLeavesOtherWords : Prop :=
  ∀ (s : State) (r r' : Reg) (v : Word), r' ≠ r → sameWord s (writeReg r v s) r'

/-- R58: a legal read returns the register's current value to the host and changes nothing of the
block; the host's list, the reads and the recorded fault are the model's own (log 1, 3, 5). -/
def Obligations.ReadsHaveNoSideEffect : Prop :=
  ∀ (s : State) (rest : List HostAction) (r : Reg),
    s.host = .read .w32 (offsetOf r) :: rest →
      ∃ t, step s = .next t ∧ sameBlock s t ∧ t.host = rest ∧ t.reads = s.reads ++ [readReg s r]

/-- R58: a legal write to a register other than `CMD` stores the word and does nothing else. -/
def Obligations.WritesOnlyStore : Prop :=
  ∀ (s : State) (rest : List HostAction) (r : Reg) (v : Word), r ≠ .cmd →
    s.host = .write .w32 (offsetOf r) v :: rest →
      step s = .next (writeReg r v { s with host := rest })

/-- R21, R25 to R29, R62, R63, R84: every register as its words in the window: `VAL` is
{VAL0, VAL1, VAL2, VAL3}, `TIME` is {TIMEH, TIMEL}, `PAY` is {PAY0[15:0], PAY1, PAY2}, a slot is one
word, byte `4w + m` of `BUF` is bits [31-8m : 24-8m] of word `w`; `STATUS` has `ERR` in [3:0] and
`ERRPOS` in [12:8], `CTRL` has `TSPOL` in bit 0, and their other bits read 0. A word written to `VAL`,
`TIME`, `PAY` or `BUF` lands in those same bits. -/
def Obligations.RegisterWordOrder : Prop :=
  ∀ (s : State) (v : Word),
    s.val = readReg s (.val 0) ++ readReg s (.val 1) ++ readReg s (.val 2) ++ readReg s (.val 3) ∧
    s.time = readReg s .timeh ++ readReg s .timel ∧
    s.pay = (readReg s (.pay 0)).extractLsb' 0 16 ++ readReg s (.pay 1) ++ readReg s (.pay 2) ∧
    (∀ w m : Fin 4,
      (readReg s (.buf w)).extractLsb' (24 - 8 * m.val) 8 = s.buf[4 * w.val + m.val]) ∧
    (∀ i : Fin 26, readReg s (.str i) = s.str[i.val]) ∧
    (∀ j : Fin 16, readReg s (.pstr j) = s.pstr[j.val]) ∧
    ((readReg s .status).extractLsb' 0 4 = s.err ∧ (readReg s .status).extractLsb' 4 4 = 0#4 ∧
      (readReg s .status).extractLsb' 8 5 = s.errPos ∧
      (readReg s .status).extractLsb' 13 19 = 0#19 ∧ readReg s .errchar = s.errChar) ∧
    ((readReg s .ctrl).extractLsb' 0 1 = s.tspol ∧ (readReg s .ctrl).extractLsb' 1 31 = 0#31) ∧
    ((writeReg (.val 0) v s).val = v ++ s.val.extractLsb' 0 96 ∧
      (writeReg (.val 1) v s).val = s.val.extractLsb' 96 32 ++ v ++ s.val.extractLsb' 0 64 ∧
      (writeReg (.val 2) v s).val = s.val.extractLsb' 64 64 ++ v ++ s.val.extractLsb' 0 32 ∧
      (writeReg (.val 3) v s).val = s.val.extractLsb' 32 96 ++ v) ∧
    ((writeReg .timeh v s).time = v ++ s.time.extractLsb' 0 32 ∧
      (writeReg .timel v s).time = s.time.extractLsb' 32 32 ++ v) ∧
    ((writeReg (.pay 0) v s).pay = v.extractLsb' 0 16 ++ s.pay.extractLsb' 0 64 ∧
      (writeReg (.pay 1) v s).pay = s.pay.extractLsb' 64 16 ++ v ++ s.pay.extractLsb' 0 32 ∧
      (writeReg (.pay 2) v s).pay = s.pay.extractLsb' 32 48 ++ v) ∧
    (∀ w m : Fin 4,
      (writeReg (.buf w) v s).buf[4 * w.val + m.val] = v.extractLsb' (24 - 8 * m.val) 8)

/-- R61: the packed buffer read as one big-endian integer is the timestamp above the payload. -/
def Obligations.BufferIsBigEndian : Prop :=
  ∀ (ts : Stamp) (p : Payload) (b : Vector Byte 16),
    PackedBytes ts p b ↔ be b.toList = ts.toNat * 2 ^ 80 + p.toNat
end

