-- ==== Sys2Proof/Laws/Alphabet.lean ====
section
/-!
SUPPORT. What `code` and `idx` can do: they are inverse to each other, and the code order is the
digit order (spec/30_encoding.md R86 to R88).
-/

namespace Sys2Proof.Machine

/-- A fact of every digit, from its 32 cases. -/
theorem digit_cases {P : Digit → Prop} (h : ∀ k : Fin 32, P (BitVec.ofNat 5 k.val)) (d : Digit) :
    P d := by
  have := h ⟨d.toNat, d.isLt⟩
  simpa using this

@[simp] theorem idx_code (d : Digit) : idx (code d) = some d :=
  digit_cases (P := fun d => idx (code d) = some d) (by decide) d

theorem codeIndex_some {u : Word} {cs : List Word} {k n : Nat} (h : codeIndex u cs k = some n) :
    k ≤ n ∧ n < k + cs.length ∧ cs[n - k]? = some u := by
  induction cs generalizing k with
  | nil => simp [codeIndex] at h
  | cons c cs ih =>
    rw [codeIndex] at h
    split at h
    · obtain rfl : k = n := by simpa using h
      simp [*]
    · obtain ⟨h1, h2, h3⟩ := ih h
      obtain ⟨m, rfl⟩ : ∃ m, n = k + 1 + m := ⟨n - (k + 1), by omega⟩
      refine ⟨by omega, by simp; omega, ?_⟩
      rw [show k + 1 + m - k = m + 1 by omega]
      simpa using h3

theorem code_of_idx {u : Word} {d : Digit} (h : idx u = some d) : code d = u := by
  obtain ⟨n, hn, rfl⟩ := Option.map_eq_some_iff.mp h
  obtain ⟨-, h2, h3⟩ := codeIndex_some hn
  have hlen : n < 32 := by simpa [alphabetCodes] using h2
  have : (BitVec.ofNat 5 n).toNat = n := by simp; omega
  rw [code, this, List.getD_eq_getElem?_getD]
  simp only [Nat.sub_zero] at h3
  rw [h3]; rfl

theorem idx_eq_some_iff {u : Word} {d : Digit} : idx u = some d ↔ code d = u :=
  ⟨code_of_idx, by rintro rfl; exact idx_code d⟩

theorem idx_zero : idx 0#32 = none := by decide

/-- The codes rise with the digits (R88). -/
theorem code_lt_code_iff (d e : Digit) : code d < code e ↔ d < e := by
  have h : ∀ k l : Fin 32,
      (code (BitVec.ofNat 5 k.val) < code (BitVec.ofNat 5 l.val) ↔
        BitVec.ofNat 5 k.val < BitVec.ofNat 5 l.val) := by decide
  have := h ⟨d.toNat, d.isLt⟩ ⟨e.toNat, e.isLt⟩
  simpa using this

end Sys2Proof.Machine
end

