-- ==== Sys2Proof/Laws/Base32.lean ====
section
/-!
SUPPORT. What the pure functions can do. Both number readings of the spec, `BE` in base 256 and
the text in base 32, are one left-to-right fold (`horner`); its laws are proved once.
-/

namespace Sys2Proof.Machine

/-- A digit sequence read left to right in base `B`, most significant first. -/
def horner (B : Nat) (l : List Nat) : Nat := l.foldl (fun acc d => acc * B + d) 0

theorem horner_from (B acc : Nat) (l : List Nat) :
    l.foldl (fun acc d => acc * B + d) acc = acc * B ^ l.length + horner B l := by
  induction l generalizing acc with
  | nil => simp [horner]
  | cons d l ih =>
    simp only [List.foldl_cons, List.length_cons, horner]
    rw [ih, ih (0 * B + d)]
    ring

theorem horner_append (B : Nat) (l m : List Nat) :
    horner B (l ++ m) = horner B l * B ^ m.length + horner B m := by
  rw [horner, List.foldl_append, horner_from]; rfl

theorem horner_cons (B d : Nat) (l : List Nat) :
    horner B (d :: l) = d * B ^ l.length + horner B l := by
  simpa [horner] using horner_append B [d] l

theorem horner_lt {B : Nat} {l : List Nat} (h : ∀ d ∈ l, d < B) : horner B l < B ^ l.length := by
  induction l with
  | nil => simp [horner]
  | cons d l ih =>
    rw [horner_cons, List.length_cons, pow_succ]
    have h1 : d + 1 ≤ B := h d (by simp)
    have h2 := ih fun e he => h e (by simp [he])
    calc d * B ^ l.length + horner B l < (d + 1) * B ^ l.length := by rw [add_mul]; omega
      _ ≤ B ^ l.length * B := by rw [Nat.mul_comm]; exact Nat.mul_le_mul_left _ h1

/-- Two digit sequences of one length with the same value are the same. -/
theorem horner_inj {B : Nat} {l m : List Nat} (hl : ∀ d ∈ l, d < B) (hm : ∀ d ∈ m, d < B)
    (hlen : l.length = m.length) (h : horner B l = horner B m) : l = m := by
  induction l generalizing m with
  | nil => simpa using hlen.symm
  | cons d l ih =>
    cases m with
    | nil => simp at hlen
    | cons e m =>
      have hl' : ∀ d ∈ l, d < B := fun x hx => hl x (by simp [hx])
      have hm' : ∀ d ∈ m, d < B := fun x hx => hm x (by simp [hx])
      have hlen' : l.length = m.length := by simpa using hlen
      rw [horner_cons, horner_cons, ← hlen'] at h
      have h1 := horner_lt hl'
      have h2 := hlen' ▸ horner_lt hm'
      have hde : d = e := by
        have hpos : 0 < B ^ l.length := by omega
        have := congrArg (· / B ^ l.length) h
        simpa [Nat.mul_comm d, Nat.mul_comm e, Nat.mul_add_div hpos, Nat.div_eq_of_lt h1,
          Nat.div_eq_of_lt h2] using this
      subst hde
      rw [ih hl' hm' hlen' (by omega)]

/-- The digits of `v` in base `B`, most significant first, read back. -/
theorem horner_digits (B n v : Nat) :
    horner B (List.ofFn fun i : Fin n => v / B ^ (n - 1 - i.val) % B) = v % B ^ n := by
  induction n generalizing v with
  | zero => simp [horner, Nat.mod_one]
  | succ n ih =>
    rw [List.ofFn_succ', List.concat_eq_append, horner_append]
    have : (List.ofFn fun i : Fin n => v / B ^ (n + 1 - 1 - (i.castSucc).val) % B) =
        List.ofFn fun i : Fin n => v / B / B ^ (n - 1 - i.val) % B := by
      congr 1; funext i
      rw [Nat.div_div_eq_div_mul, ← pow_succ', Fin.val_castSucc]
      congr 3; omega
    rw [this, ih]
    simp only [List.length_singleton, pow_one, horner, List.foldl_cons, List.foldl_nil,
      Fin.val_last, add_tsub_cancel_right, Nat.sub_self, pow_zero, Nat.div_one, Nat.zero_mul,
      Nat.zero_add]
    rw [pow_succ', Nat.mod_mul, Nat.add_comm, Nat.mul_comm B]

/-! Big-endian bytes. -/

theorem be_eq_horner (l : List Byte) : be l = horner 256 (l.map BitVec.toNat) := by
  rw [be, horner, List.foldl_map]

theorem be_append (l m : List Byte) : be (l ++ m) = be l * 256 ^ m.length + be m := by
  simp [be_eq_horner, horner_append]

theorem be_lt (l : List Byte) : be l < 256 ^ l.length := by
  have : ∀ d ∈ l.map BitVec.toNat, d < 256 := by
    intro d hd
    obtain ⟨b, -, rfl⟩ := List.mem_map.mp hd
    exact b.isLt
  simpa [be_eq_horner] using horner_lt this

theorem be_inj {l m : List Byte} (hlen : l.length = m.length) (h : be l = be m) : l = m := by
  have hb : ∀ l : List Byte, ∀ d ∈ l.map BitVec.toNat, d < 256 := by
    intro l d hd
    obtain ⟨b, -, rfl⟩ := List.mem_map.mp hd
    exact b.isLt
  rw [be_eq_horner, be_eq_horner] at h
  have := horner_inj (hb l) (hb m) (by simpa using hlen) h
  exact List.map_injective_iff.mpr (fun a b h => BitVec.eq_of_toNat_eq h) this

theorem be_beBytes {w : Nat} (n : Nat) (v : BitVec w) :
    be (beBytes n v).toList = v.toNat % 256 ^ n := by
  rw [be_eq_horner, ← horner_digits]
  congr 1
  simp only [beBytes, Vector.toList_ofFn, List.map_ofFn]
  congr 1; funext i
  simp only [Function.comp_apply, BitVec.extractLsb'_toNat, Nat.shiftRight_eq_div_pow]
  rw [Nat.pow_mul]

/-- 16 bytes with the same big-endian value are the same (R61). -/
theorem vector_eq_of_be {n : Nat} {a b : Vector Byte n} (h : be a.toList = be b.toList) : a = b := by
  have := be_inj (by simp) h
  exact Vector.toList_inj.mp this

theorem beBytes_be16 (b : Vector Byte 16) : beBytes 16 (be16 b) = b := by
  apply vector_eq_of_be
  have := be_lt b.toList
  simp only [Vector.length_toList] at this
  rw [be_beBytes, be16, BitVec.toNat_ofNat]
  norm_num at this ⊢
  omega

theorem be_splitBytes (v : Value) : be (splitBytes v).toList = v.toNat := by
  have hv := v.isLt
  rw [splitBytes, Vector.toList_append, be_append, be_beBytes, be_beBytes]
  simp only [BitVec.extractLsb'_toNat, Nat.shiftRight_eq_div_pow, Vector.length_toList]
  norm_num
  omega

@[simp] theorem be16_splitBytes (v : Value) : be16 (splitBytes v) = v := by
  rw [be16, be_splitBytes]; simp

/-- The two fields of a value (R61): the timestamp above the payload. -/
theorem toNat_fields (ts : Stamp) (p : Payload) :
    (ts ++ p : BitVec (48 + 80)).toNat = ts.toNat * 2 ^ 80 + p.toNat := by
  rw [BitVec.toNat_append, ← Nat.shiftLeft_add_eq_or_of_lt p.isLt, Nat.shiftLeft_eq]

theorem be_pack16 (ts : Stamp) (p : Payload) :
    be (pack16 ts p).toList = ts.toNat * 2 ^ 80 + p.toNat := by
  have h1 := ts.isLt
  have h2 := p.isLt
  rw [pack16, be_beBytes, toNat_fields]
  norm_num
  omega

@[simp] theorem be16_pack16 (ts : Stamp) (p : Payload) : be16 (pack16 ts p) = ts ++ p := by
  apply BitVec.eq_of_toNat_eq
  rw [be16, be_pack16, BitVec.toNat_ofNat, ← toNat_fields]
  exact Nat.mod_eq_of_lt (ts ++ p : BitVec (48 + 80)).isLt

theorem be_take_drop (b : Vector Byte 16) :
    be b.toList = be (b.toList.take 6) * 2 ^ 80 + be (b.toList.drop 6) := by
  conv_lhs => rw [← List.take_append_drop 6 b.toList]
  rw [be_append]
  simp only [List.length_drop, Vector.length_toList]
  norm_num

theorem stampOf_toNat (b : Vector Byte 16) : (stampOf b).toNat = be (b.toList.take 6) := by
  have := be_lt (b.toList.take 6)
  simp only [List.length_take, Vector.length_toList] at this
  rw [stampOf, BitVec.toNat_ofNat]
  norm_num at this ⊢
  omega

theorem payloadOf_toNat (b : Vector Byte 16) : (payloadOf b).toNat = be (b.toList.drop 6) := by
  have := be_lt (b.toList.drop 6)
  simp only [List.length_drop, Vector.length_toList] at this
  rw [payloadOf, BitVec.toNat_ofNat]
  norm_num at this ⊢
  omega

@[simp] theorem stampOf_pack16 (ts : Stamp) (p : Payload) : stampOf (pack16 ts p) = ts := by
  have h1 := be_take_drop (pack16 ts p)
  rw [be_pack16, ← stampOf_toNat, ← payloadOf_toNat] at h1
  have h2 := (payloadOf (pack16 ts p)).isLt
  have h3 := p.isLt
  apply BitVec.eq_of_toNat_eq
  omega

@[simp] theorem payloadOf_pack16 (ts : Stamp) (p : Payload) : payloadOf (pack16 ts p) = p := by
  have h1 := be_take_drop (pack16 ts p)
  rw [be_pack16, ← stampOf_toNat, ← payloadOf_toNat] at h1
  have h2 := (payloadOf (pack16 ts p)).isLt
  have h3 := p.isLt
  apply BitVec.eq_of_toNat_eq
  omega

@[simp] theorem pack16_fields (b : Vector Byte 16) : pack16 (stampOf b) (payloadOf b) = b := by
  apply vector_eq_of_be
  rw [be_pack16, stampOf_toNat, payloadOf_toNat, ← be_take_drop]

/-! The text. -/

/-- The value of a digit sequence, most significant first. -/
def digitsValue (ds : List Digit) : Nat := horner 32 (ds.map BitVec.toNat)

theorem digit_lt (ds : List Digit) : ∀ d ∈ ds.map BitVec.toNat, d < 32 := by
  intro d hd
  obtain ⟨b, -, rfl⟩ := List.mem_map.mp hd
  exact b.isLt

theorem digitsValue_lt (ds : List Digit) : digitsValue ds < 32 ^ ds.length := by
  simpa [digitsValue] using horner_lt (digit_lt ds)

theorem digitsValue_inj {ds es : List Digit} (hlen : ds.length = es.length)
    (h : digitsValue ds = digitsValue es) : ds = es := by
  have := horner_inj (digit_lt ds) (digit_lt es) (by simpa using hlen) h
  exact List.map_injective_iff.mpr (fun a b h => BitVec.eq_of_toNat_eq h) this

theorem digitsValue_append (ds es : List Digit) :
    digitsValue (ds ++ es) = digitsValue ds * 32 ^ es.length + digitsValue es := by
  simp [digitsValue, horner_append]

/-- A fold over codes of digits whose first is small enough succeeds with their value. -/
theorem foldFrom_codes (top i acc : Nat) (ds : List Digit)
    (h : i = 0 → ∀ d ∈ ds.head?, d.toNat < top) :
    foldFrom top i acc (ds.map code) = .ok (acc * 32 ^ ds.length + digitsValue ds) := by
  induction ds generalizing i acc with
  | nil => simp [foldFrom, digitsValue, horner]
  | cons d ds ih =>
    have hd : ¬(i = 0 ∧ top ≤ d.toNat) := by
      rintro ⟨h0, h1⟩
      have := h h0 d (by simp)
      omega
    rw [List.map_cons, foldFrom, idx_code]
    simp only [hd, if_false]
    rw [ih _ _ (by omega)]
    simp only [digitsValue, List.map_cons, horner_cons, List.length_cons, List.length_map]
    congr 1
    ring

/-- A fold that succeeds has read the codes of digits, and answers their value. -/
theorem foldFrom_ok {top i acc a : Nat} {us : List Word} (h : foldFrom top i acc us = .ok a) :
    ∃ ds : List Digit, us = ds.map code ∧ a = acc * 32 ^ ds.length + digitsValue ds ∧
      (i = 0 → ∀ d ∈ ds.head?, d.toNat < top) := by
  induction us generalizing i acc with
  | nil => exact ⟨[], by simpa [foldFrom, digitsValue, horner] using h.symm⟩
  | cons u us ih =>
    rw [foldFrom] at h
    split at h
    · cases h
    · rename_i d hd
      split at h
      · cases h
      · rename_i hn
        obtain ⟨ds, rfl, h2, -⟩ := ih h
        refine ⟨d :: ds, by simp [code_of_idx hd], ?_, ?_⟩
        · simp only [digitsValue, List.map_cons, horner_cons, List.length_cons, List.length_map] at *
          rw [h2]; ring
        · intro h0 e he
          obtain rfl : d = e := by simpa using he
          omega

/-- A fold that refuses a slot names the first one it refuses, and why (R104, R106). -/
theorem foldFrom_bad {top i acc j : Nat} {u : Word} {us : List Word}
    (h : foldFrom top i acc us = .bad j u) :
    ∃ k, j = i + k ∧ us[k]? = some u ∧
      (idx u = none ∨ j = 0 ∧ ∃ d, idx u = some d ∧ top ≤ d.toNat) := by
  induction us generalizing i acc with
  | nil => simp [foldFrom] at h
  | cons c us ih =>
    rw [foldFrom] at h
    split at h
    · rename_i hc
      cases h
      exact ⟨0, by simp [hc]⟩
    · rename_i d hd
      split at h
      · rename_i h0
        cases h
        exact ⟨0, by simp, by simp, .inr ⟨h0.1, d, hd, h0.2⟩⟩
      · obtain ⟨k, rfl, h2, h3⟩ := ih h
        exact ⟨k + 1, by omega, by simpa using h2, h3⟩

/-- The first `k` slots before a refused one hold digits. -/
theorem foldFrom_bad_before {top i acc j : Nat} {u : Word} {us : List Word}
    (h : foldFrom top i acc us = .bad j u) :
    ∀ k < j - i, ∀ c ∈ us[k]?, (idx c).isSome := by
  induction us generalizing i acc with
  | nil => simp [foldFrom] at h
  | cons c us ih =>
    rw [foldFrom] at h
    split at h
    · cases h; simp
    · rename_i d hd
      split at h
      · cases h; simp
      · intro k hk e he
        cases k with
        | zero =>
          obtain rfl : c = e := by simpa using he
          simp [hd]
        | succ k => exact ih h k (by omega) e (by simpa using he)

/-- The digits of a value's text. -/
def encDigits (v : Value) : List Digit := List.ofFn fun i : Fin 26 => encDigit v i.val

theorem enc26_toList (v : Value) : (enc26 v).toList = (encDigits v).map code := by
  simp [enc26, encDigits, Vector.toList_ofFn]

theorem encDigit_toNat (v : Value) (i : Nat) :
    (encDigit v i).toNat = v.toNat / 2 ^ (125 - 5 * i) % 32 := by
  have : v.toNat % 2 ^ 130 = v.toNat := Nat.mod_eq_of_lt (by have := v.isLt; omega)
  rw [encDigit, BitVec.extractLsb'_toNat, Nat.shiftRight_eq_div_pow, BitVec.toNat_setWidth, this]

/-- The 26 digits of a value have that value (R100). -/
theorem digitsValue_encDigits (v : Value) : digitsValue (encDigits v) = v.toNat := by
  have h := horner_digits 32 26 v.toNat
  have hv : v.toNat % 32 ^ 26 = v.toNat := Nat.mod_eq_of_lt (by have := v.isLt; omega)
  rw [hv] at h
  rw [digitsValue, encDigits, List.map_ofFn]
  conv_rhs => rw [← h]
  congr 2; funext i
  rw [Function.comp_apply, encDigit_toNat, show 32 = 2 ^ 5 from rfl, ← pow_mul]
  congr 3; omega

/-- The first digit of a value's text is at most 7 (R102). -/
theorem encDigit_zero_le (v : Value) : (encDigit v 0).toNat < 8 := by
  rw [encDigit_toNat]
  have := v.isLt
  omega

/-- Decoding the text of a value succeeds with that value. -/
@[simp] theorem foldText_enc26 (v : Value) : foldText (enc26 v).toList = .ok v.toNat := by
  rw [enc26_toList, foldText, foldFrom_codes, digitsValue_encDigits]
  · simp
  · intro _ d hd
    have : (encDigits v).head? = some (encDigit v 0) := by simp [encDigits, List.ofFn_succ]
    rw [this] at hd
    obtain rfl : encDigit v 0 = d := by simpa using hd
    exact encDigit_zero_le v

/-- A text that decodes is the text of the value it decodes to, which fits 128 bits. -/
theorem enc26_of_foldText {s : Vector Word 26} {a : Nat} (h : foldText s.toList = .ok a) :
    a < 2 ^ 128 ∧ enc26 (BitVec.ofNat 128 a) = s := by
  obtain ⟨ds, h1, h2, h3⟩ := foldFrom_ok h
  have hlen : ds.length = 26 := by simpa using (congrArg List.length h1).symm
  have ha : a = digitsValue ds := by simpa using h2
  have hlt : a < 2 ^ 128 := by
    obtain ⟨d, es, rfl⟩ : ∃ d es, ds = d :: es := by
      cases ds with
      | nil => simp at hlen
      | cons d es => exact ⟨d, es, rfl⟩
    have hd := h3 rfl d (by simp)
    have hes := digitsValue_lt es
    have hl : es.length = 25 := by simpa using hlen
    rw [ha, digitsValue, List.map_cons, horner_cons, List.length_map, hl]
    rw [digitsValue, hl] at hes
    omega
  refine ⟨hlt, Vector.toList_inj.mp ?_⟩
  rw [enc26_toList, h1]
  congr 1
  apply digitsValue_inj (by simp [encDigits, hlen])
  rw [digitsValue_encDigits, BitVec.toNat_ofNat, Nat.mod_eq_of_lt hlt, ha]

/-- Sixteen digits fit the 80-bit payload (R136). -/
theorem foldSlots_lt {us : List Word} {a : Nat} (h : foldSlots us = .ok a) :
    a < 32 ^ us.length := by
  obtain ⟨ds, rfl, rfl, -⟩ := foldFrom_ok h
  simpa using digitsValue_lt ds

/-- The text of two fields: ten characters of the timestamp and sixteen of the payload (R89). -/
theorem encDigits_fields (ts : Stamp) (p : Payload) {ds es : List Digit} (hd : ds.length = 10)
    (he : es.length = 16) (hts : digitsValue ds = ts.toNat) (hp : digitsValue es = p.toNat) :
    encDigits (ts ++ p) = ds ++ es := by
  apply digitsValue_inj (by simp [encDigits, hd, he])
  rw [digitsValue_encDigits, toNat_fields, digitsValue_append, hts, hp, he]
  norm_num

/-- The first ten digits of two fields have the timestamp's value, the other sixteen the payload's. -/
theorem digitsValue_fields (ts : Stamp) (p : Payload) :
    digitsValue ((encDigits (ts ++ p)).take 10) = ts.toNat ∧
      digitsValue ((encDigits (ts ++ p)).drop 10) = p.toNat := by
  have h := digitsValue_encDigits (ts ++ p)
  rw [toNat_fields, ← List.take_append_drop 10 (encDigits (ts ++ p)), digitsValue_append] at h
  have h2 := digitsValue_lt ((encDigits (ts ++ p)).drop 10)
  have h3 := p.isLt
  have hl : ((encDigits (ts ++ p)).drop 10).length = 16 := by simp [encDigits]
  rw [hl] at h h2
  omega

end Sys2Proof.Machine
end

