-- ==== Sys2Proof/Laws/Decode.lean ====
section
/-!
SUPPORT. What the decoder and the access checks can answer.
-/

namespace Sys2Proof

/-- The operation number that decodes to a command is the command's (R82). -/
theorem decodeOp_eq_some {op : BitVec 8} {i : Instr} (h : decodeOp op = some i) : op = opcode i := by
  unfold decodeOp at h
  split at h <;> first
    | (obtain rfl := Option.some.inj h; apply BitVec.eq_of_toNat_eq; simpa [opcode] using ‹_›)
    | cases h

@[simp] theorem decodeOp_opcode (i : Instr) : decodeOp (opcode i) = some i := by cases i <;> rfl

theorem decodeOp_eq_none {op : BitVec 8} (h : decodeOp op = none) : op.toNat = 0 ∨ 11 < op.toNat := by
  by_contra hc
  have h1 : 1 ≤ op.toNat := by omega
  have h2 : op.toNat ≤ 11 := by omega
  unfold decodeOp at h
  interval_cases op.toNat <;> simp at h

/-- A word is its reserved field above its operation number (R80). -/
theorem word_fields (w : Word) : w = rsvdField w ++ opField w := by
  apply BitVec.eq_of_toNat_eq
  have := w.isLt
  rw [BitVec.toNat_append, ← Nat.shiftLeft_add_eq_or_of_lt (opField w).isLt, Nat.shiftLeft_eq]
  simp only [rsvdField, opField, BitVec.extractLsb'_toNat, Nat.shiftRight_eq_div_pow]
  omega

theorem decode_cases (w : Word) :
    (∃ i, decode w = .instr i ∧ rsvdField w = 0#24 ∧ opField w = opcode i) ∨
    (decode w = .illegal .reservedBits ∧ rsvdField w ≠ 0#24) ∨
    (decode w = .illegal .undefinedOp ∧ rsvdField w = 0#24 ∧
      ((opField w).toNat = 0 ∨ 11 < (opField w).toNat)) := by
  by_cases h : rsvdField w = 0#24
  · cases ho : decodeOp (opField w) with
    | some i => exact .inl ⟨i, by simp [decode, h, ho], h, decodeOp_eq_some ho⟩
    | none => exact .inr (.inr ⟨by simp [decode, h, ho], h, decodeOp_eq_none ho⟩)
  · exact .inr (.inl ⟨by simp [decode, h], h⟩)

@[simp] theorem rsvdField_encode (i : Instr) : rsvdField (encode i) = 0#24 := by cases i <;> decide

@[simp] theorem opField_encode (i : Instr) : opField (encode i) = opcode i := by cases i <;> decide

namespace Machine

theorem accessLegal_iff (width : Width) (off : Offset) :
    accessLegal width off = true ↔ width = .w32 ∧ off.toNat % 4 = 0 := by
  simp [accessLegal]

/-- The well-formedness check of an access is the check that `perform` makes. -/
theorem aligned_iff (off : Offset) : off.extractLsb' 0 2 = 0#2 ↔ off.toNat % 4 = 0 := by
  rw [← BitVec.toNat_inj]
  simp [BitVec.extractLsb'_toNat]

end Machine

end Sys2Proof
end

