-- ==== Sys2Proof/Laws/State.lean ====
section
/-!
SUPPORT. One lemma per field of State per named update, each true by unfolding the update once:
a later proof rewrites with these and unfolds no record update.
-/

namespace Sys2Proof.Machine

variable (s : State)

section
variable (e : ErrorCode) (pos : BitVec 5) (ch : Word)
@[simp] theorem raise_cmd : (raise e pos ch s).cmd = s.cmd := rfl
@[simp] theorem raise_err : (raise e pos ch s).err = errorNumber e := rfl
@[simp] theorem raise_errPos : (raise e pos ch s).errPos = pos := rfl
@[simp] theorem raise_errChar : (raise e pos ch s).errChar = ch := rfl
@[simp] theorem raise_tspol : (raise e pos ch s).tspol = s.tspol := rfl
@[simp] theorem raise_val : (raise e pos ch s).val = s.val := rfl
@[simp] theorem raise_buf : (raise e pos ch s).buf = s.buf := rfl
@[simp] theorem raise_buflen : (raise e pos ch s).buflen = s.buflen := rfl
@[simp] theorem raise_strlen : (raise e pos ch s).strlen = s.strlen := rfl
@[simp] theorem raise_pstrlen : (raise e pos ch s).pstrlen = s.pstrlen := rfl
@[simp] theorem raise_time : (raise e pos ch s).time = s.time := rfl
@[simp] theorem raise_pay : (raise e pos ch s).pay = s.pay := rfl
@[simp] theorem raise_str : (raise e pos ch s).str = s.str := rfl
@[simp] theorem raise_pstr : (raise e pos ch s).pstr = s.pstr := rfl
@[simp] theorem raise_written : (raise e pos ch s).written = s.written := rfl
@[simp] theorem raise_faulted : (raise e pos ch s).faulted = s.faulted := rfl
@[simp] theorem raise_draws : (raise e pos ch s).draws = s.draws := rfl
@[simp] theorem raise_host : (raise e pos ch s).host = s.host := rfl
@[simp] theorem raise_reads : (raise e pos ch s).reads = s.reads := rfl
end

section
@[simp] theorem complete_cmd : (complete s).cmd = s.cmd := rfl
@[simp] theorem complete_err : (complete s).err = 0#4 := rfl
@[simp] theorem complete_errPos : (complete s).errPos = 0#5 := rfl
@[simp] theorem complete_errChar : (complete s).errChar = 0#32 := rfl
@[simp] theorem complete_tspol : (complete s).tspol = s.tspol := rfl
@[simp] theorem complete_val : (complete s).val = s.val := rfl
@[simp] theorem complete_buf : (complete s).buf = s.buf := rfl
@[simp] theorem complete_buflen : (complete s).buflen = s.buflen := rfl
@[simp] theorem complete_strlen : (complete s).strlen = s.strlen := rfl
@[simp] theorem complete_pstrlen : (complete s).pstrlen = s.pstrlen := rfl
@[simp] theorem complete_time : (complete s).time = s.time := rfl
@[simp] theorem complete_pay : (complete s).pay = s.pay := rfl
@[simp] theorem complete_str : (complete s).str = s.str := rfl
@[simp] theorem complete_pstr : (complete s).pstr = s.pstr := rfl
@[simp] theorem complete_written : (complete s).written = s.written := rfl
@[simp] theorem complete_faulted : (complete s).faulted = s.faulted := rfl
@[simp] theorem complete_draws : (complete s).draws = s.draws := rfl
@[simp] theorem complete_host : (complete s).host = s.host := rfl
@[simp] theorem complete_reads : (complete s).reads = s.reads := rfl
end

section
variable (rs : List Reg)
@[simp] theorem noteRead_cmd : (noteRead rs s).cmd = s.cmd := rfl
@[simp] theorem noteRead_err : (noteRead rs s).err = s.err := rfl
@[simp] theorem noteRead_errPos : (noteRead rs s).errPos = s.errPos := rfl
@[simp] theorem noteRead_errChar : (noteRead rs s).errChar = s.errChar := rfl
@[simp] theorem noteRead_tspol : (noteRead rs s).tspol = s.tspol := rfl
@[simp] theorem noteRead_val : (noteRead rs s).val = s.val := rfl
@[simp] theorem noteRead_buf : (noteRead rs s).buf = s.buf := rfl
@[simp] theorem noteRead_buflen : (noteRead rs s).buflen = s.buflen := rfl
@[simp] theorem noteRead_strlen : (noteRead rs s).strlen = s.strlen := rfl
@[simp] theorem noteRead_pstrlen : (noteRead rs s).pstrlen = s.pstrlen := rfl
@[simp] theorem noteRead_time : (noteRead rs s).time = s.time := rfl
@[simp] theorem noteRead_pay : (noteRead rs s).pay = s.pay := rfl
@[simp] theorem noteRead_str : (noteRead rs s).str = s.str := rfl
@[simp] theorem noteRead_pstr : (noteRead rs s).pstr = s.pstr := rfl
@[simp] theorem noteRead_written : (noteRead rs s).written = s.written := rfl
@[simp] theorem noteRead_faulted : (noteRead rs s).faulted = (s.faulted || !rs.all (isWritten s)) := rfl
@[simp] theorem noteRead_draws : (noteRead rs s).draws = s.draws := rfl
@[simp] theorem noteRead_host : (noteRead rs s).host = s.host := rfl
@[simp] theorem noteRead_reads : (noteRead rs s).reads = s.reads := rfl
end

section
variable (v : Value)
@[simp] theorem putVal_cmd : (putVal v s).cmd = s.cmd := rfl
@[simp] theorem putVal_err : (putVal v s).err = s.err := rfl
@[simp] theorem putVal_errPos : (putVal v s).errPos = s.errPos := rfl
@[simp] theorem putVal_errChar : (putVal v s).errChar = s.errChar := rfl
@[simp] theorem putVal_tspol : (putVal v s).tspol = s.tspol := rfl
@[simp] theorem putVal_val : (putVal v s).val = v := rfl
@[simp] theorem putVal_buf : (putVal v s).buf = s.buf := rfl
@[simp] theorem putVal_buflen : (putVal v s).buflen = s.buflen := rfl
@[simp] theorem putVal_strlen : (putVal v s).strlen = s.strlen := rfl
@[simp] theorem putVal_pstrlen : (putVal v s).pstrlen = s.pstrlen := rfl
@[simp] theorem putVal_time : (putVal v s).time = s.time := rfl
@[simp] theorem putVal_pay : (putVal v s).pay = s.pay := rfl
@[simp] theorem putVal_str : (putVal v s).str = s.str := rfl
@[simp] theorem putVal_pstr : (putVal v s).pstr = s.pstr := rfl
@[simp] theorem putVal_written : (putVal v s).written = { s.written with val := BitVec.allOnes 4 } := rfl
@[simp] theorem putVal_faulted : (putVal v s).faulted = s.faulted := rfl
@[simp] theorem putVal_draws : (putVal v s).draws = s.draws := rfl
@[simp] theorem putVal_host : (putVal v s).host = s.host := rfl
@[simp] theorem putVal_reads : (putVal v s).reads = s.reads := rfl
end

section
variable (b : Vector Byte 16)
@[simp] theorem putBuf_cmd : (putBuf b s).cmd = s.cmd := rfl
@[simp] theorem putBuf_err : (putBuf b s).err = s.err := rfl
@[simp] theorem putBuf_errPos : (putBuf b s).errPos = s.errPos := rfl
@[simp] theorem putBuf_errChar : (putBuf b s).errChar = s.errChar := rfl
@[simp] theorem putBuf_tspol : (putBuf b s).tspol = s.tspol := rfl
@[simp] theorem putBuf_val : (putBuf b s).val = s.val := rfl
@[simp] theorem putBuf_buf : (putBuf b s).buf = b := rfl
@[simp] theorem putBuf_buflen : (putBuf b s).buflen = 16#32 := rfl
@[simp] theorem putBuf_strlen : (putBuf b s).strlen = s.strlen := rfl
@[simp] theorem putBuf_pstrlen : (putBuf b s).pstrlen = s.pstrlen := rfl
@[simp] theorem putBuf_time : (putBuf b s).time = s.time := rfl
@[simp] theorem putBuf_pay : (putBuf b s).pay = s.pay := rfl
@[simp] theorem putBuf_str : (putBuf b s).str = s.str := rfl
@[simp] theorem putBuf_pstr : (putBuf b s).pstr = s.pstr := rfl
@[simp] theorem putBuf_written : (putBuf b s).written = { s.written with buf := BitVec.allOnes 4, buflen := true } := rfl
@[simp] theorem putBuf_faulted : (putBuf b s).faulted = s.faulted := rfl
@[simp] theorem putBuf_draws : (putBuf b s).draws = s.draws := rfl
@[simp] theorem putBuf_host : (putBuf b s).host = s.host := rfl
@[simp] theorem putBuf_reads : (putBuf b s).reads = s.reads := rfl
end

section
variable (c : Vector Word 26)
@[simp] theorem putStr_cmd : (putStr c s).cmd = s.cmd := rfl
@[simp] theorem putStr_err : (putStr c s).err = s.err := rfl
@[simp] theorem putStr_errPos : (putStr c s).errPos = s.errPos := rfl
@[simp] theorem putStr_errChar : (putStr c s).errChar = s.errChar := rfl
@[simp] theorem putStr_tspol : (putStr c s).tspol = s.tspol := rfl
@[simp] theorem putStr_val : (putStr c s).val = s.val := rfl
@[simp] theorem putStr_buf : (putStr c s).buf = s.buf := rfl
@[simp] theorem putStr_buflen : (putStr c s).buflen = s.buflen := rfl
@[simp] theorem putStr_strlen : (putStr c s).strlen = 26#32 := rfl
@[simp] theorem putStr_pstrlen : (putStr c s).pstrlen = s.pstrlen := rfl
@[simp] theorem putStr_time : (putStr c s).time = s.time := rfl
@[simp] theorem putStr_pay : (putStr c s).pay = s.pay := rfl
@[simp] theorem putStr_str : (putStr c s).str = c := rfl
@[simp] theorem putStr_pstr : (putStr c s).pstr = s.pstr := rfl
@[simp] theorem putStr_written : (putStr c s).written = { s.written with str := BitVec.allOnes 26, strlen := true } := rfl
@[simp] theorem putStr_faulted : (putStr c s).faulted = s.faulted := rfl
@[simp] theorem putStr_draws : (putStr c s).draws = s.draws := rfl
@[simp] theorem putStr_host : (putStr c s).host = s.host := rfl
@[simp] theorem putStr_reads : (putStr c s).reads = s.reads := rfl
end

section
variable (t : BitVec 64)
@[simp] theorem putTime_cmd : (putTime t s).cmd = s.cmd := rfl
@[simp] theorem putTime_err : (putTime t s).err = s.err := rfl
@[simp] theorem putTime_errPos : (putTime t s).errPos = s.errPos := rfl
@[simp] theorem putTime_errChar : (putTime t s).errChar = s.errChar := rfl
@[simp] theorem putTime_tspol : (putTime t s).tspol = s.tspol := rfl
@[simp] theorem putTime_val : (putTime t s).val = s.val := rfl
@[simp] theorem putTime_buf : (putTime t s).buf = s.buf := rfl
@[simp] theorem putTime_buflen : (putTime t s).buflen = s.buflen := rfl
@[simp] theorem putTime_strlen : (putTime t s).strlen = s.strlen := rfl
@[simp] theorem putTime_pstrlen : (putTime t s).pstrlen = s.pstrlen := rfl
@[simp] theorem putTime_time : (putTime t s).time = t := rfl
@[simp] theorem putTime_pay : (putTime t s).pay = s.pay := rfl
@[simp] theorem putTime_str : (putTime t s).str = s.str := rfl
@[simp] theorem putTime_pstr : (putTime t s).pstr = s.pstr := rfl
@[simp] theorem putTime_written : (putTime t s).written = { s.written with time := BitVec.allOnes 2 } := rfl
@[simp] theorem putTime_faulted : (putTime t s).faulted = s.faulted := rfl
@[simp] theorem putTime_draws : (putTime t s).draws = s.draws := rfl
@[simp] theorem putTime_host : (putTime t s).host = s.host := rfl
@[simp] theorem putTime_reads : (putTime t s).reads = s.reads := rfl
end

section
variable (p : Payload)
@[simp] theorem putPay_cmd : (putPay p s).cmd = s.cmd := rfl
@[simp] theorem putPay_err : (putPay p s).err = s.err := rfl
@[simp] theorem putPay_errPos : (putPay p s).errPos = s.errPos := rfl
@[simp] theorem putPay_errChar : (putPay p s).errChar = s.errChar := rfl
@[simp] theorem putPay_tspol : (putPay p s).tspol = s.tspol := rfl
@[simp] theorem putPay_val : (putPay p s).val = s.val := rfl
@[simp] theorem putPay_buf : (putPay p s).buf = s.buf := rfl
@[simp] theorem putPay_buflen : (putPay p s).buflen = s.buflen := rfl
@[simp] theorem putPay_strlen : (putPay p s).strlen = s.strlen := rfl
@[simp] theorem putPay_pstrlen : (putPay p s).pstrlen = s.pstrlen := rfl
@[simp] theorem putPay_time : (putPay p s).time = s.time := rfl
@[simp] theorem putPay_pay : (putPay p s).pay = p := rfl
@[simp] theorem putPay_str : (putPay p s).str = s.str := rfl
@[simp] theorem putPay_pstr : (putPay p s).pstr = s.pstr := rfl
@[simp] theorem putPay_written : (putPay p s).written = { s.written with pay := BitVec.allOnes 3 } := rfl
@[simp] theorem putPay_faulted : (putPay p s).faulted = s.faulted := rfl
@[simp] theorem putPay_draws : (putPay p s).draws = s.draws := rfl
@[simp] theorem putPay_host : (putPay p s).host = s.host := rfl
@[simp] theorem putPay_reads : (putPay p s).reads = s.reads := rfl
end

@[simp] theorem countDraw_cmd : (countDraw s).cmd = s.cmd := rfl
@[simp] theorem countDraw_err : (countDraw s).err = s.err := rfl
@[simp] theorem countDraw_errPos : (countDraw s).errPos = s.errPos := rfl
@[simp] theorem countDraw_errChar : (countDraw s).errChar = s.errChar := rfl
@[simp] theorem countDraw_tspol : (countDraw s).tspol = s.tspol := rfl
@[simp] theorem countDraw_val : (countDraw s).val = s.val := rfl
@[simp] theorem countDraw_buf : (countDraw s).buf = s.buf := rfl
@[simp] theorem countDraw_buflen : (countDraw s).buflen = s.buflen := rfl
@[simp] theorem countDraw_strlen : (countDraw s).strlen = s.strlen := rfl
@[simp] theorem countDraw_pstrlen : (countDraw s).pstrlen = s.pstrlen := rfl
@[simp] theorem countDraw_time : (countDraw s).time = s.time := rfl
@[simp] theorem countDraw_pay : (countDraw s).pay = s.pay := rfl
@[simp] theorem countDraw_str : (countDraw s).str = s.str := rfl
@[simp] theorem countDraw_pstr : (countDraw s).pstr = s.pstr := rfl
@[simp] theorem countDraw_written : (countDraw s).written = s.written := rfl
@[simp] theorem countDraw_faulted : (countDraw s).faulted = s.faulted := rfl
@[simp] theorem countDraw_draws : (countDraw s).draws = s.draws + 1 := rfl
@[simp] theorem countDraw_host : (countDraw s).host = s.host := rfl
@[simp] theorem countDraw_reads : (countDraw s).reads = s.reads := rfl

@[simp] theorem withHost_cmd (rest : List HostAction) : (withHost rest s).cmd = s.cmd := rfl
@[simp] theorem withHost_err (rest : List HostAction) : (withHost rest s).err = s.err := rfl
@[simp] theorem withHost_errPos (rest : List HostAction) : (withHost rest s).errPos = s.errPos := rfl
@[simp] theorem withHost_errChar (rest : List HostAction) : (withHost rest s).errChar = s.errChar := rfl
@[simp] theorem withHost_tspol (rest : List HostAction) : (withHost rest s).tspol = s.tspol := rfl
@[simp] theorem withHost_val (rest : List HostAction) : (withHost rest s).val = s.val := rfl
@[simp] theorem withHost_buf (rest : List HostAction) : (withHost rest s).buf = s.buf := rfl
@[simp] theorem withHost_buflen (rest : List HostAction) : (withHost rest s).buflen = s.buflen := rfl
@[simp] theorem withHost_strlen (rest : List HostAction) : (withHost rest s).strlen = s.strlen := rfl
@[simp] theorem withHost_pstrlen (rest : List HostAction) : (withHost rest s).pstrlen = s.pstrlen := rfl
@[simp] theorem withHost_time (rest : List HostAction) : (withHost rest s).time = s.time := rfl
@[simp] theorem withHost_pay (rest : List HostAction) : (withHost rest s).pay = s.pay := rfl
@[simp] theorem withHost_str (rest : List HostAction) : (withHost rest s).str = s.str := rfl
@[simp] theorem withHost_pstr (rest : List HostAction) : (withHost rest s).pstr = s.pstr := rfl
@[simp] theorem withHost_written (rest : List HostAction) : (withHost rest s).written = s.written := rfl
@[simp] theorem withHost_faulted (rest : List HostAction) : (withHost rest s).faulted = s.faulted := rfl
@[simp] theorem withHost_draws (rest : List HostAction) : (withHost rest s).draws = s.draws := rfl
@[simp] theorem withHost_host (rest : List HostAction) : (withHost rest s).host = rest := rfl
@[simp] theorem withHost_reads (rest : List HostAction) : (withHost rest s).reads = s.reads := rfl

@[simp] theorem applyReset_cmd : (applyReset s).cmd = State.reset.cmd := rfl
@[simp] theorem applyReset_err : (applyReset s).err = State.reset.err := rfl
@[simp] theorem applyReset_errPos : (applyReset s).errPos = State.reset.errPos := rfl
@[simp] theorem applyReset_errChar : (applyReset s).errChar = State.reset.errChar := rfl
@[simp] theorem applyReset_tspol : (applyReset s).tspol = State.reset.tspol := rfl
@[simp] theorem applyReset_val : (applyReset s).val = State.reset.val := rfl
@[simp] theorem applyReset_buf : (applyReset s).buf = State.reset.buf := rfl
@[simp] theorem applyReset_buflen : (applyReset s).buflen = State.reset.buflen := rfl
@[simp] theorem applyReset_strlen : (applyReset s).strlen = State.reset.strlen := rfl
@[simp] theorem applyReset_pstrlen : (applyReset s).pstrlen = State.reset.pstrlen := rfl
@[simp] theorem applyReset_time : (applyReset s).time = State.reset.time := rfl
@[simp] theorem applyReset_pay : (applyReset s).pay = State.reset.pay := rfl
@[simp] theorem applyReset_str : (applyReset s).str = State.reset.str := rfl
@[simp] theorem applyReset_pstr : (applyReset s).pstr = State.reset.pstr := rfl
@[simp] theorem applyReset_written : (applyReset s).written = State.reset.written := rfl
@[simp] theorem applyReset_faulted : (applyReset s).faulted = s.faulted := rfl
@[simp] theorem applyReset_draws : (applyReset s).draws = s.draws := rfl
@[simp] theorem applyReset_host : (applyReset s).host = s.host := rfl
@[simp] theorem applyReset_reads : (applyReset s).reads = s.reads := rfl

@[simp] theorem writeReg_err (r : Reg) (v : Word) : (writeReg r v s).err = s.err := by
  cases r <;> rfl
@[simp] theorem writeReg_errPos (r : Reg) (v : Word) : (writeReg r v s).errPos = s.errPos := by
  cases r <;> rfl
@[simp] theorem writeReg_errChar (r : Reg) (v : Word) : (writeReg r v s).errChar = s.errChar := by
  cases r <;> rfl
@[simp] theorem writeReg_faulted (r : Reg) (v : Word) : (writeReg r v s).faulted = s.faulted := by
  cases r <;> rfl
@[simp] theorem writeReg_draws (r : Reg) (v : Word) : (writeReg r v s).draws = s.draws := by
  cases r <;> rfl
@[simp] theorem writeReg_host (r : Reg) (v : Word) : (writeReg r v s).host = s.host := by
  cases r <;> rfl
@[simp] theorem writeReg_reads (r : Reg) (v : Word) : (writeReg r v s).reads = s.reads := by
  cases r <;> rfl

@[simp] theorem writeReg_cmd_tspol (v : Word) : (writeReg .cmd v s).tspol = s.tspol := rfl
@[simp] theorem writeReg_cmd_val (v : Word) : (writeReg .cmd v s).val = s.val := rfl
@[simp] theorem writeReg_cmd_buf (v : Word) : (writeReg .cmd v s).buf = s.buf := rfl
@[simp] theorem writeReg_cmd_buflen (v : Word) : (writeReg .cmd v s).buflen = s.buflen := rfl
@[simp] theorem writeReg_cmd_strlen (v : Word) : (writeReg .cmd v s).strlen = s.strlen := rfl
@[simp] theorem writeReg_cmd_pstrlen (v : Word) : (writeReg .cmd v s).pstrlen = s.pstrlen := rfl
@[simp] theorem writeReg_cmd_time (v : Word) : (writeReg .cmd v s).time = s.time := rfl
@[simp] theorem writeReg_cmd_pay (v : Word) : (writeReg .cmd v s).pay = s.pay := rfl
@[simp] theorem writeReg_cmd_str (v : Word) : (writeReg .cmd v s).str = s.str := rfl
@[simp] theorem writeReg_cmd_pstr (v : Word) : (writeReg .cmd v s).pstr = s.pstr := rfl
@[simp] theorem writeReg_cmd_written (v : Word) : (writeReg .cmd v s).written = s.written := rfl
@[simp] theorem writeReg_cmd_cmd (v : Word) : (writeReg .cmd v s).cmd = v := rfl

@[simp] theorem placeCommand_cmd (w : Word) : (placeCommand w s).cmd = s.cmd := rfl
@[simp] theorem placeCommand_err (w : Word) : (placeCommand w s).err = s.err := rfl
@[simp] theorem placeCommand_errPos (w : Word) : (placeCommand w s).errPos = s.errPos := rfl
@[simp] theorem placeCommand_errChar (w : Word) : (placeCommand w s).errChar = s.errChar := rfl
@[simp] theorem placeCommand_tspol (w : Word) : (placeCommand w s).tspol = s.tspol := rfl
@[simp] theorem placeCommand_val (w : Word) : (placeCommand w s).val = s.val := rfl
@[simp] theorem placeCommand_buf (w : Word) : (placeCommand w s).buf = s.buf := rfl
@[simp] theorem placeCommand_buflen (w : Word) : (placeCommand w s).buflen = s.buflen := rfl
@[simp] theorem placeCommand_strlen (w : Word) : (placeCommand w s).strlen = s.strlen := rfl
@[simp] theorem placeCommand_pstrlen (w : Word) : (placeCommand w s).pstrlen = s.pstrlen := rfl
@[simp] theorem placeCommand_time (w : Word) : (placeCommand w s).time = s.time := rfl
@[simp] theorem placeCommand_pay (w : Word) : (placeCommand w s).pay = s.pay := rfl
@[simp] theorem placeCommand_str (w : Word) : (placeCommand w s).str = s.str := rfl
@[simp] theorem placeCommand_pstr (w : Word) : (placeCommand w s).pstr = s.pstr := rfl
@[simp] theorem placeCommand_written (w : Word) : (placeCommand w s).written = s.written := rfl
@[simp] theorem placeCommand_faulted (w : Word) : (placeCommand w s).faulted = s.faulted := rfl
@[simp] theorem placeCommand_draws (w : Word) : (placeCommand w s).draws = s.draws := rfl
@[simp] theorem placeCommand_reads (w : Word) : (placeCommand w s).reads = s.reads := rfl
@[simp] theorem placeCommand_host (w : Word) :
    (placeCommand w s).host = .write .w32 (offsetOf .cmd) w :: s.host := rfl

end Sys2Proof.Machine
end

