-- ==== Sys2Proof/Laws/Ops.lean ====
section
/-!
SUPPORT. What the operations on the registers can do: the window's map, one word read or written,
and the written bits.
-/

namespace Sys2Proof.Machine

/-! The register map (R51). -/

/-- A fact of every register, from the facts of each kind. -/
theorem reg_cases {P : Reg → Prop} (h0 : P .cmd ∧ P .status ∧ P .errchar ∧ P .ctrl)
    (hv : ∀ w, P (.val w)) (hb : ∀ w, P (.buf w)) (hl : P .buflen ∧ P .strlen ∧ P .pstrlen)
    (ht : P .timeh ∧ P .timel) (hp : ∀ w, P (.pay w)) (hs : ∀ i, P (.str i))
    (hq : ∀ j, P (.pstr j)) (ha : ∀ k, P (.alpha k)) (r : Reg) : P r := by
  cases r <;> simp_all

@[simp] theorem regAt_offsetOf (r : Reg) : regAt (offsetOf r) = some r :=
  reg_cases (P := fun r => regAt (offsetOf r) = some r)
    (by decide) (by decide) (by decide) (by decide) (by decide) (by decide) (by decide) (by decide)
    (by decide) r

@[simp] theorem offsetOf_aligned (r : Reg) : (offsetOf r).toNat % 4 = 0 :=
  reg_cases (P := fun r => (offsetOf r).toNat % 4 = 0)
    (by decide) (by decide) (by decide) (by decide) (by decide) (by decide) (by decide) (by decide)
    (by decide) r

theorem offsetOf_inj {r r' : Reg} (h : offsetOf r = offsetOf r') : r = r' := by
  have := congrArg regAt h
  simpa using this

theorem offsetOf_eq_cmd {r : Reg} : offsetOf r = offsetOf .cmd ↔ r = .cmd :=
  ⟨offsetOf_inj, by rintro rfl; rfl⟩

@[simp] theorem accessLegal_offsetOf (r : Reg) : accessLegal .w32 (offsetOf r) = true := by
  simp [accessLegal_iff]

/-! Replacing bits. -/

theorem splice_getLsbD {n m : Nat} (v : BitVec n) (lo : Nat) (x : BitVec m) (i : Nat) :
    (splice v lo x).getLsbD i =
      (if i < n ∧ lo ≤ i ∧ i < lo + m then x.getLsbD (i - lo) else v.getLsbD i) := by
  by_cases hn : i < n
  · by_cases h1 : lo ≤ i
    · by_cases h2 : i < lo + m
      · have h3 : i - lo < m := by omega
        have h5 : ¬ i < lo := by omega
        simp [splice, hn, h1, h2, h3, h5]
      · have h3 : ¬ i - lo < m := by omega
        have h5 : ¬ i < lo := by omega
        have h6 : x.getLsbD (i - lo) = false := BitVec.getLsbD_of_ge _ _ (by omega)
        simp [splice, hn, h1, h2, h3, h5, h6]
    · have h5 : i < lo := by omega
      simp [splice, hn, h1, h5]
  · have h6 : v.getLsbD i = false := BitVec.getLsbD_of_ge _ _ (by omega)
    have h7 : (splice v lo x).getLsbD i = false := BitVec.getLsbD_of_ge _ _ (by omega)
    simp [hn, h6, h7]

/-- The replaced field reads back. -/
theorem extractLsb'_splice_self {n m : Nat} (v : BitVec n) (lo : Nat) (x : BitVec m)
    (h : lo + m ≤ n) : (splice v lo x).extractLsb' lo m = x := by
  apply BitVec.eq_of_getLsbD_eq
  intro i hi
  have h1 : lo + i < n ∧ lo ≤ lo + i ∧ lo + i < lo + m := by omega
  rw [BitVec.getLsbD_extractLsb', splice_getLsbD, if_pos h1, Nat.add_sub_cancel_left]
  simp [hi]

/-- A field that does not overlap the replaced one is as before. -/
theorem extractLsb'_splice_other {n m : Nat} (v : BitVec n) (lo : Nat) (x : BitVec m)
    (lo' m' : Nat) (h : lo' + m' ≤ lo ∨ lo + m ≤ lo') :
    (splice v lo x).extractLsb' lo' m' = v.extractLsb' lo' m' := by
  apply BitVec.eq_of_getLsbD_eq
  intro i hi
  have h1 : ¬(lo' + i < n ∧ lo ≤ lo' + i ∧ lo' + i < lo + m) := by omega
  simp only [BitVec.getLsbD_extractLsb', splice_getLsbD, h1, if_false]

/-! The words of `BUF` (R62). -/

theorem toNat_append {n m : Nat} (x : BitVec n) (y : BitVec m) :
    (x ++ y).toNat = x.toNat * 2 ^ m + y.toNat := by
  rw [BitVec.toNat_append, ← Nat.shiftLeft_add_eq_or_of_lt y.isLt, Nat.shiftLeft_eq]

theorem bufWord_byte (b : Vector Byte 16) (w m : Fin 4) :
    (bufWord b w).extractLsb' (24 - 8 * m.val) 8 = b[4 * w.val + m.val] := by
  have e : ∀ x y z u : Byte, (x ++ y ++ z ++ u : Word).toNat =
      ((x.toNat * 2 ^ 8 + y.toNat) * 2 ^ 8 + z.toNat) * 2 ^ 8 + u.toNat := by
    intro x y z u
    rw [toNat_append, toNat_append, toNat_append]
  apply BitVec.eq_of_toNat_eq
  rw [BitVec.extractLsb'_toNat, bufWord, e, Nat.shiftRight_eq_div_pow]
  fin_cases m <;> simp <;> omega

/-- Two words with the same four bytes are the same. -/
theorem word_eq_of_bytes {x y : Word}
    (h : ∀ m : Fin 4, x.extractLsb' (24 - 8 * m.val) 8 = y.extractLsb' (24 - 8 * m.val) 8) : x = y := by
  apply BitVec.eq_of_toNat_eq
  have h0 := congrArg BitVec.toNat (h 0)
  have h1 := congrArg BitVec.toNat (h 1)
  have h2 := congrArg BitVec.toNat (h 2)
  have h3 := congrArg BitVec.toNat (h 3)
  simp [BitVec.extractLsb'_toNat, Nat.shiftRight_eq_div_pow] at h0 h1 h2 h3
  have := x.isLt
  have := y.isLt
  omega

theorem setBufWord_getElem (b : Vector Byte 16) (w : Fin 4) (v : Word) (k : Nat) (hk : k < 16) :
    (setBufWord b w v)[k] =
      if k / 4 = w.val then v.extractLsb' (24 - 8 * (k % 4)) 8 else b[k] := by
  simp [setBufWord]

theorem bufWord_setBufWord (b : Vector Byte 16) (w w' : Fin 4) (v : Word) :
    bufWord (setBufWord b w v) w' = if w' = w then v else bufWord b w' := by
  apply word_eq_of_bytes
  intro m
  rw [bufWord_byte, setBufWord_getElem]
  have h1 : (4 * w'.val + m.val) / 4 = w'.val := by omega
  have h2 : (4 * w'.val + m.val) % 4 = m.val := by omega
  rw [h1, h2]
  by_cases h : w' = w
  · simp [h]
  · have : w'.val ≠ w.val := fun e => h (Fin.ext e)
    simp [h, this, bufWord_byte]

/-! Reading, writing and the written bits of a word. -/

theorem isWritten_writeReg (s : State) (r r' : Reg) (v : Word) :
    isWritten (writeReg r v s) r' =
      (isWritten s r' || decide (r' = r ∧ r ≠ .status ∧ r ≠ .errchar ∧ ∀ k, r ≠ .alpha k)) := by
  cases r <;> cases r' <;>
    simp [isWritten, writeReg, Fin.ext_iff, eq_comm]

/-! The updates of a command's end and of its results, seen word by word. -/

variable (s : State) (r : Reg)

@[simp] theorem isWritten_raise (e : ErrorCode) (pos : BitVec 5) (ch : Word) :
    isWritten (raise e pos ch s) r = isWritten s r := by cases r <;> rfl

@[simp] theorem isWritten_complete : isWritten (complete s) r = isWritten s r := by cases r <;> rfl

@[simp] theorem isWritten_noteRead (rs : List Reg) :
    isWritten (noteRead rs s) r = isWritten s r := by cases r <;> rfl

@[simp] theorem isWritten_countDraw : isWritten (countDraw s) r = isWritten s r := by
  cases r <;> rfl

@[simp] theorem isWritten_withHost (rest : List HostAction) :
    isWritten (withHost rest s) r = isWritten s r := by cases r <;> rfl

@[simp] theorem isWritten_writeReg_cmd (w : Word) :
    isWritten (writeReg .cmd w s) r = isWritten s r := by cases r <;> rfl

@[simp] theorem readReg_countDraw : readReg (countDraw s) r = readReg s r := by cases r <;> rfl

@[simp] theorem readReg_withHost (rest : List HostAction) :
    readReg (withHost rest s) r = readReg s r := by cases r <;> rfl

@[simp] theorem readReg_noteRead (rs : List Reg) :
    readReg (noteRead rs s) r = readReg s r := by cases r <;> rfl

end Sys2Proof.Machine
end

