-- ==== Sys2Proof/Laws/Operands.lean ====
section
/-!
SUPPORT. What each operand form can answer: the value it gives and when, and the errors it raises.
-/

namespace Sys2Proof.Machine

/-! Checking an operand. -/

section
variable {α : Type} (rs : List Reg) (s : State) (k : α → State → State)

@[simp] theorem guarded_ok (a : α) : guarded rs (.ok a) s k = k a (noteRead rs s) := rfl

@[simp] theorem guarded_bad (e : ErrorCode) (pos : BitVec 5) (ch : Word) :
    guarded rs (.bad e pos ch) s k = raise e pos ch (noteRead rs s) := rfl

end

/-! The timestamp (R130). -/

theorem ts48_cases (s : State) :
    (ts48 s = .ok (s.time.setWidth 48) ∧
      (s.tspol ≠ 0#1 ∨ 0 ≤ s.time.toInt ∧ s.time.toInt ≤ 2 ^ 48 - 1)) ∨
    (ts48 s = .bad .timestampOutOfRange 0#5 0#32 ∧ s.tspol = 0#1 ∧
      (s.time.toInt < 0 ∨ 2 ^ 48 - 1 < s.time.toInt)) := by
  unfold ts48
  have e : (Config.maxStamp : Int) = 2 ^ 48 - 1 := by norm_num [Config.maxStamp]
  rw [e]
  by_cases h : s.tspol = 0#1
  · by_cases h' : s.time.toInt < 0 ∨ (2 ^ 48 - 1 : Int) < s.time.toInt
    · exact .inr ⟨by simp only [h, if_true, h'], h, h'⟩
    · exact .inl ⟨by simp only [h, if_true, h', if_false], .inr (by omega)⟩
  · exact .inl ⟨by simp only [h, if_false], .inl h⟩

theorem ts48_accepts {s : State}
    (h : s.tspol = 1#1 ∨ 0 ≤ s.time.toInt ∧ s.time.toInt ≤ 2 ^ 48 - 1) :
    ts48 s = .ok (s.time.setWidth 48) := by
  rcases ts48_cases s with h1 | ⟨-, h2, h3⟩
  · exact h1.1
  · rcases h with h | h
    · rw [h2] at h; exact absurd h (by decide)
    · omega

theorem ts48_rejects {s : State} (h0 : s.tspol = 0#1)
    (h : s.time.toInt < 0 ∨ 2 ^ 48 - 1 < s.time.toInt) :
    ts48 s = .bad .timestampOutOfRange 0#5 0#32 := by
  rcases ts48_cases s with ⟨-, h1 | h1⟩ | h1
  · exact absurd h0 h1
  · omega
  · exact h1.1

/-- Under REJECT an accepted `TIME` is the field it gives (R130). -/
theorem setWidth_of_accepted {t : BitVec 64} (h0 : 0 ≤ t.toInt) (h1 : t.toInt ≤ 2 ^ 48 - 1) :
    (t.setWidth 48).setWidth 64 = t := by
  apply BitVec.eq_of_toNat_eq
  have h2 := t.isLt
  rw [BitVec.toInt_eq_toNat_cond] at h0 h1
  split at h0 <;> simp only [*, if_true, if_false] at h1 <;> simp <;> omega

/-! A list of slots, slot by slot. -/

theorem toList_getElem? {n : Nat} (v : Vector Word n) (k : Nat) (hk : k < n) :
    v.toList[k]? = some v[k] := by
  simp [hk]

/-- A fold over slots that all hold digits, the first small enough, succeeds. -/
theorem foldFrom_isOk {top i acc : Nat} {us : List Word}
    (h : ∀ k u, us[k]? = some u →
      ∃ d, idx u = some d ∧ (i + k = 0 → d.toNat < top)) :
    ∃ a, foldFrom top i acc us = .ok a := by
  induction us generalizing i acc with
  | nil => exact ⟨acc, rfl⟩
  | cons u us ih =>
    obtain ⟨d, hd, h0⟩ := h 0 u (by simp)
    have hn : ¬(i = 0 ∧ top ≤ d.toNat) := by
      rintro ⟨rfl, hh⟩
      have := h0 rfl
      omega
    obtain ⟨a, ha⟩ := ih (i := i + 1) (acc := acc * 32 + d.toNat) fun k u hk => by
      obtain ⟨e, he, he0⟩ := h (k + 1) u (by simpa using hk)
      exact ⟨e, he, by omega⟩
    exact ⟨a, by rw [foldFrom, hd]; simp only [hn, if_false]; exact ha⟩

/-- A fold stops at the first slot it refuses, and names it. -/
theorem foldFrom_isBad {top i acc k : Nat} {us : List Word} {u : Word} (hk : us[k]? = some u)
    (hbad : idx u = none ∨ i + k = 0 ∧ ∃ d, idx u = some d ∧ top ≤ d.toNat)
    (hbefore : ∀ l < k, ∀ u, us[l]? = some u →
      ∃ d, idx u = some d ∧ (i + l = 0 → d.toNat < top)) :
    foldFrom top i acc us = .bad (i + k) u := by
  induction us generalizing i acc k with
  | nil => simp at hk
  | cons c us ih =>
    cases k with
    | zero =>
      obtain rfl : c = u := by simpa using hk
      rw [foldFrom]
      rcases hbad with h | ⟨h0, d, hd, ht⟩
      · rw [h]; rfl
      · rw [hd]
        have : i = 0 ∧ top ≤ d.toNat := ⟨by omega, ht⟩
        simp [this]
    | succ k =>
      obtain ⟨d, hd, h0⟩ := hbefore 0 (by omega) c (by simp)
      have hn : ¬(i = 0 ∧ top ≤ d.toNat) := by
        rintro ⟨rfl, hh⟩
        have := h0 rfl
        omega
      rw [foldFrom, hd]
      simp only [hn, if_false]
      rw [ih (i := i + 1) (k := k) (by simpa using hk) (by
        rcases hbad with h | ⟨h, -⟩
        · exact .inl h
        · omega) fun l hl u hu => by
          obtain ⟨e, he, he0⟩ := hbefore (l + 1) (by omega) u (by simpa using hu)
          exact ⟨e, he, by omega⟩]
      congr 1
      omega

/-! The payload override (R135). -/

theorem payFromStr_length {s : State} (h : s.pstrlen ≠ 16#32) :
    payFromStr s = .bad .invalidPayloadEncoding 0#5 0#32 := by simp [payFromStr, h]

/-- Sixteen alphabet characters spell a payload: the one whose digits they are. -/
theorem payFromStr_ok {s : State} {a : Nat} (h : s.pstrlen = 16#32)
    (ha : foldSlots s.pstr.toList = .ok a) :
    payFromStr s = .ok (BitVec.ofNat 80 a) ∧ (BitVec.ofNat 80 a).toNat = a := by
  have := foldSlots_lt ha
  simp only [Vector.length_toList] at this
  refine ⟨by simp [payFromStr, h, ha], ?_⟩
  rw [BitVec.toNat_ofNat]
  norm_num at this ⊢
  omega

theorem payFromStr_bad {s : State} {j : Nat} {u : Word} (h : s.pstrlen = 16#32)
    (hb : foldSlots s.pstr.toList = .bad j u) :
    payFromStr s = .bad .invalidPayloadEncoding (BitVec.ofNat 5 j) u := by simp [payFromStr, h, hb]

/-! The 26-character text (R105). -/

theorem textOperand_length {s : State} (h : s.strlen ≠ 26#32) :
    textOperand s = .bad .invalidLength 0#5 0#32 := by simp [textOperand, h]

theorem textOperand_ok {s : State} {a : Nat} (h : s.strlen = 26#32)
    (ha : foldText s.str.toList = .ok a) :
    textOperand s = .ok (BitVec.ofNat 128 a) ∧ enc26 (BitVec.ofNat 128 a) = s.str :=
  ⟨by simp [textOperand, h, ha], (enc26_of_foldText ha).2⟩

theorem textOperand_bad {s : State} {i : Nat} {u : Word} (h : s.strlen = 26#32)
    (hb : foldText s.str.toList = .bad i u) :
    textOperand s = .bad .invalidCharacter (BitVec.ofNat 5 i) u := by simp [textOperand, h, hb]

/-- The text of a value is read as that value. -/
theorem textOperand_enc26 {s : State} {v : Value} (h : s.strlen = 26#32) (hs : s.str = enc26 v) :
    textOperand s = .ok v := by
  have : foldText s.str.toList = .ok v.toNat := by rw [hs, foldText_enc26]
  rw [(textOperand_ok h this).1]
  simp

/-! The first ten characters (R175). -/

theorem textTimeOperand_length {s : State} (h : s.strlen ≠ 26#32) :
    textTimeOperand s = .bad .invalidLength 0#5 0#32 := by simp [textTimeOperand, h]

theorem textTimeOperand_bad {s : State} {i : Nat} {u : Word} (h : s.strlen = 26#32)
    (hb : foldSlots (s.str.toList.take 10) = .bad i u) :
    textTimeOperand s = .bad .invalidCharacter (BitVec.ofNat 5 i) u := by
  simp [textTimeOperand, h, hb]

theorem textTimeOperand_range {s : State} {a : Nat} (h : s.strlen = 26#32)
    (ha : foldSlots (s.str.toList.take 10) = .ok a) (hr : 2 ^ 48 - 1 < a) :
    textTimeOperand s = .bad .timestampOutOfRange 0#5 0#32 := by
  simp [textTimeOperand, h, ha, hr]

theorem textTimeOperand_ok {s : State} {a : Nat} (h : s.strlen = 26#32)
    (ha : foldSlots (s.str.toList.take 10) = .ok a) (hr : a ≤ 2 ^ 48 - 1) :
    textTimeOperand s = .ok (BitVec.ofNat 48 a) := by
  have : ¬ Config.maxStamp < a := by simp [Config.maxStamp]; omega
  simp [textTimeOperand, h, ha, this]

/-- The text of two fields is read by `DTIME` as the timestamp. -/
theorem textTimeOperand_enc26 {s : State} {ts : Stamp} {p : Payload} (h : s.strlen = 26#32)
    (hs : s.str = enc26 (ts ++ p)) : textTimeOperand s = .ok ts := by
  have ha : foldSlots (s.str.toList.take 10) = .ok ts.toNat := by
    rw [hs, enc26_toList, ← List.map_take, foldSlots, foldFrom_codes, (digitsValue_fields ts p).1]
    · simp
    · intro _ d _
      have := d.isLt
      omega
  have := ts.isLt
  rw [textTimeOperand_ok h ha (by omega)]
  simp

/-! The binary operand (R160). -/

theorem binaryOperand_length {s : State} (h : s.buflen ≠ 16#32) :
    binaryOperand s = .bad .invalidLength 0#5 0#32 := by simp [binaryOperand, h]

theorem binaryOperand_ok {s : State} (h : s.buflen = 16#32) : binaryOperand s = .ok s.buf := by
  simp [binaryOperand, h]

/-! Every error that an operand raises is one its fields can report (R200 to R204). -/

/-- The error, position and character that a command may report. -/
def reportable (e : ErrorCode) (pos : BitVec 5) (ch : Word) : Prop :=
  match e with
  | .invalidCharacter =>
    pos.toNat < 26 ∧ ∀ d ∈ idx ch, pos = 0#5 ∧ 8 ≤ d.toNat
  | .invalidPayloadEncoding => pos.toNat < 16 ∧ idx ch = none
  | .invalidLength | .timestampOutOfRange | .illegalCommand => pos = 0#5 ∧ ch = 0#32

theorem fold_bad_lt {top i j : Nat} {acc : Nat} {us : List Word} {u : Word}
    (h : foldFrom top i acc us = .bad j u) : j < i + us.length := by
  obtain ⟨k, rfl, hk, -⟩ := foldFrom_bad h
  have : k < us.length := by
    by_contra hc
    rw [List.getElem?_eq_none (by omega)] at hk
    cases hk
  omega

theorem foldSlots_bad_idx {us : List Word} {j : Nat} {u : Word} (h : foldSlots us = .bad j u) :
    idx u = none := by
  obtain ⟨k, -, -, h1 | ⟨-, d, -, h2⟩⟩ := foldFrom_bad h
  · exact h1
  · have := d.isLt
    omega

theorem ts48_reportable {s : State} {e : ErrorCode} {pos : BitVec 5} {ch : Word}
    (h : ts48 s = .bad e pos ch) : reportable e pos ch := by
  rcases ts48_cases s with h1 | h1 <;> rw [h1.1] at h <;> cases h
  exact ⟨rfl, rfl⟩

theorem payFromStr_reportable {s : State} {e : ErrorCode} {pos : BitVec 5} {ch : Word}
    (h : payFromStr s = .bad e pos ch) : reportable e pos ch := by
  unfold payFromStr at h
  split at h
  · cases h; exact ⟨by decide, idx_zero⟩
  · split at h
    · rename_i j u hb
      cases h
      have h1 := fold_bad_lt hb
      simp only [Vector.length_toList] at h1
      refine ⟨?_, foldSlots_bad_idx hb⟩
      rw [BitVec.toNat_ofNat]; omega
    · cases h

theorem textOperand_reportable {s : State} {e : ErrorCode} {pos : BitVec 5} {ch : Word}
    (h : textOperand s = .bad e pos ch) : reportable e pos ch := by
  unfold textOperand at h
  split at h
  · cases h; exact ⟨rfl, rfl⟩
  · split at h
    · rename_i j u hb
      cases h
      have h1 := fold_bad_lt hb
      simp only [Vector.length_toList] at h1
      refine ⟨by rw [BitVec.toNat_ofNat]; omega, ?_⟩
      obtain ⟨k, -, -, h2 | ⟨h2, d, hd, h3⟩⟩ := foldFrom_bad hb
      · simp [h2]
      · subst h2; simp [hd, h3]
    · cases h

theorem textTimeOperand_reportable {s : State} {e : ErrorCode} {pos : BitVec 5} {ch : Word}
    (h : textTimeOperand s = .bad e pos ch) : reportable e pos ch := by
  unfold textTimeOperand at h
  split at h
  · cases h; exact ⟨rfl, rfl⟩
  · split at h
    · rename_i j u hb
      cases h
      have h1 := fold_bad_lt hb
      simp only [List.length_take, Vector.length_toList] at h1
      refine ⟨by rw [BitVec.toNat_ofNat]; omega, ?_⟩
      simp [foldSlots_bad_idx hb]
    · split at h
      · cases h; exact ⟨rfl, rfl⟩
      · cases h

theorem binaryOperand_reportable {s : State} {e : ErrorCode} {pos : BitVec 5} {ch : Word}
    (h : binaryOperand s = .bad e pos ch) : reportable e pos ch := by
  unfold binaryOperand at h
  split at h
  · cases h; exact ⟨rfl, rfl⟩
  · cases h

end Sys2Proof.Machine
end

