-- ==== Sys2Proof/Laws/Exec.lean ====
section
/-!
SUPPORT. What a command and a step can do, said once: every claim about all commands is derived
from these cases, not from the commands' definitions.
-/

namespace Sys2Proof.Machine

/-- The state that a command leaves when it fails: only the status and the record of a fault differ. -/
def failed (s t : State) : Prop :=
  ∃ (e : ErrorCode) (pos : BitVec 5) (ch : Word) (rs : List Reg),
    reportable e pos ch ∧ t = raise e pos ch (noteRead rs s)

theorem noteRead_noteRead (rs rs' : List Reg) (s : State) :
    noteRead rs' (noteRead rs s) = noteRead (rs ++ rs') s := by
  have : rs'.all (isWritten (noteRead rs s)) = rs'.all (isWritten s) := by
    congr 1
  simp only [noteRead, List.all_append] at *
  rw [this, Bool.not_and, Bool.or_assoc]

/-- Everything a command can do: fail with a reportable error, or complete with the result it
writes, having read words and, for `PACKR` and `GENR`, drawn once. -/
theorem exec_cases {i : Instr} {s t : State} (h : exec i s = .next t) :
    failed s t ∨
    (∃ rs w, i ∈ [Instr.enc, .gens, .b2s] ∧ t = complete (putStr w (noteRead rs s))) ∨
    (∃ rs w, i = .genr ∧
      t = complete (putStr w (countDraw (noteRead rs s)))) ∨
    (∃ rs b, i ∈ [Instr.pack, .packs, .s2b] ∧ t = complete (putBuf b (noteRead rs s))) ∨
    (∃ rs b, i = .packr ∧
      t = complete (putBuf b (countDraw (noteRead rs s)))) ∨
    (∃ rs v, i = .dec ∧ t = complete (putVal v (noteRead rs s))) ∨
    (∃ rs v, i = .dtime ∧ t = complete (putTime v (noteRead rs s))) ∨
    (∃ rs v p, i = .unpack ∧ t = complete (putPay p (putTime v (noteRead rs s)))) := by
  cases i with
  | enc =>
    cases h
    exact .inr (.inl ⟨valReads, enc26 s.val, by simp, rfl⟩)
  | dec =>
    cases hc : textOperand s with
    | ok v =>
      simp only [exec, execDec, hc, guarded_ok, Host.Outcome.next.injEq] at h
      exact .inr (.inr (.inr (.inr (.inr (.inl ⟨_, _, rfl, h.symm⟩)))))
    | bad e pos ch =>
      simp only [exec, execDec, hc, guarded_bad, Host.Outcome.next.injEq] at h
      exact .inl ⟨e, pos, ch, _, textOperand_reportable hc, h.symm⟩
  | pack =>
    cases hc : ts48 s with
    | ok v =>
      simp only [exec, execPack, hc, guarded_ok, noteRead_noteRead, Host.Outcome.next.injEq] at h
      exact .inr (.inr (.inr (.inl ⟨_, _, by simp, h.symm⟩)))
    | bad e pos ch =>
      simp only [exec, execPack, hc, guarded_bad, Host.Outcome.next.injEq] at h
      exact .inl ⟨e, pos, ch, _, ts48_reportable hc, h.symm⟩
  | packs =>
    cases hc : ts48 s with
    | ok v =>
      cases hp : payFromStr s with
      | ok p =>
        simp only [exec, execPacks, hc, hp, guarded_ok, noteRead_noteRead, Host.Outcome.next.injEq] at h
        exact .inr (.inr (.inr (.inl ⟨_, _, by simp, h.symm⟩)))
      | bad e pos ch =>
        simp only [exec, execPacks, hc, hp, guarded_ok, guarded_bad, noteRead_noteRead,
          Host.Outcome.next.injEq] at h
        exact .inl ⟨e, pos, ch, _, payFromStr_reportable hp, h.symm⟩
    | bad e pos ch =>
      simp only [exec, execPacks, hc, guarded_bad, Host.Outcome.next.injEq] at h
      exact .inl ⟨e, pos, ch, _, ts48_reportable hc, h.symm⟩
  | packr =>
    cases hc : ts48 s with
    | ok v =>
      simp only [exec, execPackr, hc, guarded_ok, withDraw, Host.Outcome.next.injEq] at h
      exact .inr (.inr (.inr (.inr (.inl ⟨_, _, rfl, h.symm⟩))))
    | bad e pos ch =>
      simp only [exec, execPackr, hc, guarded_bad, Host.Outcome.next.injEq] at h
      exact .inl ⟨e, pos, ch, _, ts48_reportable hc, h.symm⟩
  | gens =>
    cases hc : ts48 s with
    | ok v =>
      cases hp : payFromStr s with
      | ok p =>
        simp only [exec, execGens, hc, hp, guarded_ok, noteRead_noteRead, Host.Outcome.next.injEq] at h
        exact .inr (.inl ⟨_, _, by simp, h.symm⟩)
      | bad e pos ch =>
        simp only [exec, execGens, hc, hp, guarded_ok, guarded_bad, noteRead_noteRead,
          Host.Outcome.next.injEq] at h
        exact .inl ⟨e, pos, ch, _, payFromStr_reportable hp, h.symm⟩
    | bad e pos ch =>
      simp only [exec, execGens, hc, guarded_bad, Host.Outcome.next.injEq] at h
      exact .inl ⟨e, pos, ch, _, ts48_reportable hc, h.symm⟩
  | genr =>
    cases hc : ts48 s with
    | ok v =>
      simp only [exec, execGenr, hc, guarded_ok, withDraw, Host.Outcome.next.injEq] at h
      exact .inr (.inr (.inl ⟨_, _, rfl, h.symm⟩))
    | bad e pos ch =>
      simp only [exec, execGenr, hc, guarded_bad, Host.Outcome.next.injEq] at h
      exact .inl ⟨e, pos, ch, _, ts48_reportable hc, h.symm⟩
  | b2s =>
    cases hc : binaryOperand s with
    | ok v =>
      simp only [exec, execB2s, hc, guarded_ok, Host.Outcome.next.injEq] at h
      exact .inr (.inl ⟨_, _, by simp, h.symm⟩)
    | bad e pos ch =>
      simp only [exec, execB2s, hc, guarded_bad, Host.Outcome.next.injEq] at h
      exact .inl ⟨e, pos, ch, _, binaryOperand_reportable hc, h.symm⟩
  | s2b =>
    cases hc : textOperand s with
    | ok v =>
      simp only [exec, execS2b, hc, guarded_ok, Host.Outcome.next.injEq] at h
      exact .inr (.inr (.inr (.inl ⟨_, _, by simp, h.symm⟩)))
    | bad e pos ch =>
      simp only [exec, execS2b, hc, guarded_bad, Host.Outcome.next.injEq] at h
      exact .inl ⟨e, pos, ch, _, textOperand_reportable hc, h.symm⟩
  | dtime =>
    cases hc : textTimeOperand s with
    | ok v =>
      simp only [exec, execDtime, hc, guarded_ok, Host.Outcome.next.injEq] at h
      exact .inr (.inr (.inr (.inr (.inr (.inr (.inl ⟨_, _, rfl, h.symm⟩))))))
    | bad e pos ch =>
      simp only [exec, execDtime, hc, guarded_bad, Host.Outcome.next.injEq] at h
      exact .inl ⟨e, pos, ch, _, textTimeOperand_reportable hc, h.symm⟩
  | unpack =>
    cases hc : binaryOperand s with
    | ok v =>
      simp only [exec, execUnpack, hc, guarded_ok, Host.Outcome.next.injEq] at h
      exact .inr (.inr (.inr (.inr (.inr (.inr (.inr ⟨_, _, _, rfl, h.symm⟩))))))
    | bad e pos ch =>
      simp only [exec, execUnpack, hc, guarded_bad, Host.Outcome.next.injEq] at h
      exact .inl ⟨e, pos, ch, _, binaryOperand_reportable hc, h.symm⟩

/-- Everything a step can do when it answers a next state (R64, R65, R230). -/
theorem step_cases {s t : State} (h : step s = .next t) :
    (s.host = [] ∧ t = s) ∨
    (∃ rest, s.host = .reset :: rest ∧ t = applyReset (withHost rest s)) ∨
    (∃ rest off, s.host = .read .w32 off :: rest ∧ off.toNat % 4 = 0 ∧
      t = hostRead off (withHost rest s)) ∨
    (∃ rest off v, s.host = .write .w32 off v :: rest ∧ off.toNat % 4 = 0 ∧ off ≠ offsetOf .cmd ∧
      t = hostWrite off v (withHost rest s)) ∨
    (∃ rest w i, s.host = .write .w32 (offsetOf .cmd) w :: rest ∧ decode w = .instr i ∧
      exec i (writeReg .cmd w (withHost rest s)) = .next t) ∨
    (∃ rest w reason, s.host = .write .w32 (offsetOf .cmd) w :: rest ∧ decode w = .illegal reason ∧
      t = raise .illegalCommand 0#5 0#32 (writeReg .cmd w (withHost rest s))) := by
  unfold step stepHost at h
  split at h
  · rename_i hs
    cases h
    exact .inl ⟨hs, rfl⟩
  · rename_i a rest hs
    cases a with
    | reset =>
      cases h
      exact .inr (.inl ⟨rest, hs, rfl⟩)
    | read width off =>
      simp only [perform] at h
      split at h
      · rename_i hl
        obtain ⟨rfl, ha⟩ := (accessLegal_iff _ _).mp hl
        cases h
        exact .inr (.inr (.inl ⟨rest, off, hs, ha, rfl⟩))
      · cases h
    | write width off v =>
      simp only [perform] at h
      split at h
      · rename_i hl
        obtain ⟨rfl, ha⟩ := (accessLegal_iff _ _).mp hl
        simp only [performWrite] at h
        split at h
        · rename_i hoff
          subst hoff
          simp only [runCommand] at h
          split at h
          · rename_i i hd
            exact .inr (.inr (.inr (.inr (.inl ⟨rest, v, i, hs, hd, h⟩))))
          · rename_i r hd
            cases h
            exact .inr (.inr (.inr (.inr (.inr ⟨rest, v, r, hs, hd, rfl⟩))))
        · rename_i hoff
          cases h
          exact .inr (.inr (.inr (.inl ⟨rest, off, v, hs, ha, hoff, rfl⟩)))
      · cases h

end Sys2Proof.Machine
end

