-- ==== Sys2Proof/Laws/Frame.lean ====
section
/-!
SUPPORT. The frames of the named updates, word by word: which words of the window each changes,
and which words it leaves written.
-/

namespace Sys2Proof.Machine

variable (s : State)

theorem allOnes_bit {n i : Nat} (h : i < n) : (BitVec.allOnes n).getLsbD i = true := by
  simp [h]

theorem isWritten_putVal (v : Value) (r : Reg) :
    isWritten (putVal v s) r = (valReg r || isWritten s r) := by
  cases r <;> first | rfl | exact allOnes_bit (Fin.isLt _)

theorem isWritten_putBuf (b : Vector Byte 16) (r : Reg) :
    isWritten (putBuf b s) r = (bufReg r || isWritten s r) := by
  cases r <;> first | rfl | exact allOnes_bit (Fin.isLt _)

theorem isWritten_putStr (w : Vector Word 26) (r : Reg) :
    isWritten (putStr w s) r = (textReg r || isWritten s r) := by
  cases r <;> first | rfl | exact allOnes_bit (Fin.isLt _)

theorem isWritten_putTime (t : BitVec 64) (r : Reg) :
    isWritten (putTime t s) r = (timeReg r || isWritten s r) := by
  cases r <;> first | rfl | exact allOnes_bit (by decide)

theorem isWritten_putPay (p : Payload) (r : Reg) :
    isWritten (putPay p s) r = (payReg r || isWritten s r) := by
  cases r <;> first | rfl | exact allOnes_bit (Fin.isLt _)

theorem readReg_raise (e : ErrorCode) (pos : BitVec 5) (ch : Word) {r : Reg}
    (h : statusReg r = false) : readReg (raise e pos ch s) r = readReg s r := by
  cases r <;> first | rfl | cases h

theorem readReg_complete {r : Reg} (h : statusReg r = false) :
    readReg (complete s) r = readReg s r := by
  cases r <;> first | rfl | cases h

theorem readReg_putVal (v : Value) {r : Reg} (h : valReg r = false) :
    readReg (putVal v s) r = readReg s r := by
  cases r <;> first | rfl | cases h

theorem readReg_putBuf (b : Vector Byte 16) {r : Reg} (h : bufReg r = false) :
    readReg (putBuf b s) r = readReg s r := by
  cases r <;> first | rfl | cases h

theorem readReg_putStr (w : Vector Word 26) {r : Reg} (h : textReg r = false) :
    readReg (putStr w s) r = readReg s r := by
  cases r <;> first | rfl | cases h

theorem readReg_putTime (t : BitVec 64) {r : Reg} (h : timeReg r = false) :
    readReg (putTime t s) r = readReg s r := by
  cases r <;> first | rfl | cases h

theorem readReg_putPay (p : Payload) {r : Reg} (h : payReg r = false) :
    readReg (putPay p s) r = readReg s r := by
  cases r <;> first | rfl | cases h

end Sys2Proof.Machine
end

