-- ==== Sys2Proof/Laws/PerInstr.lean ====
section
/-!
SUPPORT. The family of statements made of every command as syntax: its word has reserved bits 0, an
operation number of spec/30_encoding.md R82, and decodes to the command; the word and the command
are well formed.
-/

namespace Sys2Proof.Laws.Encoding

/-- What R80 to R82 say of a command's word. -/
def Statement (i : Instr) : Prop :=
  i.wellFormed = true ∧ (encode i).extractLsb' 8 24 = 0#24 ∧
  (encode i).extractLsb' 0 8 = opcode i ∧ 1 ≤ (opcode i).toNat ∧ (opcode i).toNat ≤ 11 ∧
  commandWordWellFormed (encode i) = true ∧ decode (encode i) = .instr i ∧
  decodeTableWord 32 (encode i).toNat = some i

theorem enc : Statement .enc := by unfold Statement; decide
theorem dec : Statement .dec := by unfold Statement; decide
theorem pack : Statement .pack := by unfold Statement; decide
theorem packs : Statement .packs := by unfold Statement; decide
theorem packr : Statement .packr := by unfold Statement; decide
theorem gens : Statement .gens := by unfold Statement; decide
theorem genr : Statement .genr := by unfold Statement; decide
theorem b2s : Statement .b2s := by unfold Statement; decide
theorem s2b : Statement .s2b := by unfold Statement; decide
theorem dtime : Statement .dtime := by unfold Statement; decide
theorem unpack : Statement .unpack := by unfold Statement; decide

end Sys2Proof.Laws.Encoding
end

