-- ==== Sys2Proof/Laws/Pictures.lean ====
section
/-!
SUPPORT. The spec's pictures of a text, of packed bytes and of an override, tied to the functions
that the commands compute with.
-/

namespace Sys2Proof.Machine

/-- A field of a concatenation that lies in its upper part. -/
theorem extractLsb'_append_upper {n m : Nat} (x : BitVec n) (y : BitVec m) (lo len : Nat)
    (h : m ≤ lo) : (x ++ y).extractLsb' lo len = x.extractLsb' (lo - m) len := by
  apply BitVec.eq_of_getLsbD_eq
  intro i hi
  rw [BitVec.getLsbD_extractLsb', BitVec.getLsbD_extractLsb', BitVec.getLsbD_append]
  have h1 : ¬ lo + i < m := by omega
  rw [show lo + i - m = lo - m + i by omega]
  simp [h1]

/-- A field of a concatenation that lies in its lower part. -/
theorem extractLsb'_append_lower {n m : Nat} (x : BitVec n) (y : BitVec m) (lo len : Nat)
    (h : lo + len ≤ m) : (x ++ y).extractLsb' lo len = y.extractLsb' lo len := by
  apply BitVec.eq_of_getLsbD_eq
  intro i hi
  rw [BitVec.getLsbD_extractLsb', BitVec.getLsbD_extractLsb', BitVec.getLsbD_append]
  have h1 : lo + i < m := by omega
  simp [h1]

/-! Packed bytes (R61, R131). -/

theorem beBytes_getElem {w n : Nat} (v : BitVec w) (k : Nat) (hk : k < n) :
    (beBytes n v)[k] = v.extractLsb' (8 * (n - 1 - k)) 8 := by
  simp [beBytes]

theorem packedBytes_pack16 (ts : Stamp) (p : Payload) : PackedBytes ts p (pack16 ts p) := by
  constructor
  · intro k
    have hk := k.isLt
    rw [pack16, beBytes_getElem, extractLsb'_append_upper _ _ _ _ (by omega)]
    congr 1; omega
  · intro k
    have hk := k.isLt
    rw [pack16, beBytes_getElem, extractLsb'_append_lower _ _ _ _ (by omega)]
    congr 1; omega

theorem packedBytes_iff {ts : Stamp} {p : Payload} {b : Vector Byte 16} :
    PackedBytes ts p b ↔ b = pack16 ts p := by
  refine ⟨fun h => ?_, by rintro rfl; exact packedBytes_pack16 ts p⟩
  have h' := packedBytes_pack16 ts p
  ext k hk
  by_cases h6 : k < 6
  · rw [h.1 ⟨k, h6⟩, h'.1 ⟨k, h6⟩]
  · obtain ⟨j, rfl⟩ : ∃ j, k = 6 + j := ⟨k - 6, by omega⟩
    rw [h.2 ⟨j, by omega⟩, h'.2 ⟨j, by omega⟩]

/-- The payload of a draw has the drawn bytes, the first the most significant (R145). -/
theorem drawPayload_byte (e : Vector Byte 10) (k : Fin 10) :
    (drawPayload e).extractLsb' (72 - 8 * k.val) 8 = e[k.val] := by
  have h : beBytes 10 (drawPayload e) = e := by
    apply vector_eq_of_be
    have := be_lt e.toList
    simp only [Vector.length_toList] at this
    rw [be_beBytes, drawPayload, BitVec.toNat_ofNat]
    norm_num at this ⊢
    omega
  have hk := k.isLt
  conv_rhs => rw [← h, beBytes_getElem]
  congr 1; omega

/-! Texts (R89, R100, R103). -/

theorem textOf_iff {v : Value} {w : Vector Word 26} : TextOf v w ↔ w = enc26 v := by
  constructor
  · intro h
    ext i hi
    rw [h ⟨i, hi⟩]
    simp [enc26, encDigit]
  · rintro rfl i
    simp [enc26, encDigit]

/-- The check of `DEC` on one slot is a digit, at slot 0 one below 8 (R105, R106). -/
theorem textSlotOk_iff {w : Vector Word 26} {i : Fin 26} :
    textSlotOk w i = true ↔ ∃ d, idx w[i.val] = some d ∧ (i.val = 0 → d.toNat < 8) := by
  unfold textSlotOk
  rw [Option.any_eq_true]
  constructor
  · rintro ⟨d, hd, h⟩
    exact ⟨d, hd, by simp at h; omega⟩
  · rintro ⟨d, hd, h⟩
    exact ⟨d, hd, by simp; omega⟩

theorem textSlotOk_false {w : Vector Word 26} {i : Fin 26} (h : textSlotOk w i = false) :
    idx w[i.val] = none ∨ i.val = 0 ∧ ∃ d, idx w[i.val] = some d ∧ 8 ≤ d.toNat := by
  have h' : ¬ textSlotOk w i = true := by simp [h]
  rw [textSlotOk_iff] at h'
  cases hd : idx w[i.val] with
  | none => exact .inl rfl
  | some d =>
    have : ¬(i.val = 0 → d.toNat < 8) := fun hh => h' ⟨d, hd, hh⟩
    exact .inr ⟨by omega, d, rfl, by omega⟩

/-- A valid text (R103) is one whose every slot passes. -/
theorem validText_iff {w : Vector Word 26} :
    validText w = true ↔ ∀ i : Fin 26, textSlotOk w i = true := by
  have h0 : validText w = true ↔
      (∀ u ∈ w.toList, (idx u).isSome) ∧ ∃ d, idx w[0] = some d ∧ d.toNat ≤ 7 := by
    rw [validText, Bool.and_eq_true, List.all_eq_true, Option.any_eq_true]
    simp only [decide_eq_true_eq]
  rw [h0]
  constructor
  · rintro ⟨h1, d, hd, h2⟩ i
    rw [textSlotOk_iff]
    obtain ⟨e, he⟩ := Option.isSome_iff_exists.mp (h1 w[i.val] (by simp))
    refine ⟨e, he, fun hi => ?_⟩
    have : w[i.val] = w[0] := by congr 1
    rw [this, hd] at he
    cases he
    omega
  · intro h
    refine ⟨fun u hu => ?_, ?_⟩
    · obtain ⟨k, hk, rfl⟩ := Vector.mem_iff_getElem.mp (Vector.mem_toList_iff.mp hu)
      obtain ⟨d, hd, -⟩ := textSlotOk_iff.mp (h ⟨k, hk⟩)
      rw [hd]; rfl
    · obtain ⟨d, hd, h2⟩ := textSlotOk_iff.mp (h 0)
      exact ⟨d, hd, by have := h2 rfl; omega⟩

/-- A valid text decodes. -/
theorem foldText_valid {w : Vector Word 26} (h : validText w = true) :
    ∃ a, foldText w.toList = .ok a := by
  rw [validText_iff] at h
  apply foldFrom_isOk
  intro k u hk
  have hlt : k < 26 := by
    by_contra hc
    rw [List.getElem?_eq_none (by simpa using hc)] at hk
    cases hk
  rw [toList_getElem? w k hlt] at hk
  obtain rfl := Option.some.inj hk
  obtain ⟨d, hd, h2⟩ := textSlotOk_iff.mp (h ⟨k, hlt⟩)
  exact ⟨d, hd, fun h0 => h2 (by simpa using h0)⟩

/-- The first slot that fails is the one a decoding reports. -/
theorem foldText_first {w : Vector Word 26} {i : Fin 26} (h : textSlotOk w i = false)
    (hb : ∀ k : Fin 26, k.val < i.val → textSlotOk w k = true) :
    foldText w.toList = .bad i.val w[i.val] := by
  have := foldFrom_isBad (top := 8) (i := 0) (acc := 0) (toList_getElem? w i.val i.isLt)
    (by simpa using textSlotOk_false h) fun l hl u hu => by
      have hlt : l < 26 := by omega
      rw [toList_getElem? w l hlt] at hu
      obtain rfl := Option.some.inj hu
      obtain ⟨d, hd, h2⟩ := textSlotOk_iff.mp (hb ⟨l, hlt⟩ hl)
      exact ⟨d, hd, fun h0 => h2 (by simpa using h0)⟩
  simpa [foldText] using this

/-! A fold of `PSTR` or of the first ten slots, which refuses no digit. -/

theorem foldSlots_isOk {us : List Word} (h : ∀ u ∈ us, (idx u).isSome) :
    ∃ a, foldSlots us = .ok a := by
  apply foldFrom_isOk
  intro k u hk
  obtain ⟨d, hd⟩ := Option.isSome_iff_exists.mp (h u (List.mem_of_getElem? hk))
  exact ⟨d, hd, fun _ => by have := d.isLt; omega⟩

theorem foldSlots_isBad {us : List Word} {k : Nat} {u : Word} (hk : us[k]? = some u)
    (hbad : idx u = none) (hb : ∀ l < k, ∀ u, us[l]? = some u → (idx u).isSome) :
    foldSlots us = .bad k u := by
  have := foldFrom_isBad (top := 32) (i := 0) (acc := 0) hk (.inl hbad) fun l hl u hu => by
    obtain ⟨d, hd⟩ := Option.isSome_iff_exists.mp (hb l hl u hu)
    exact ⟨d, hd, fun _ => by have := d.isLt; omega⟩
  simpa [foldSlots] using this

/-- Digits whose value is a field of a value are the digits of that field. -/
theorem digit_of_value (ds : List Digit) (i : Nat) (d : Digit) (h : ds[i]? = some d) :
    d.toNat = digitsValue ds / 32 ^ (ds.length - 1 - i) % 32 := by
  induction ds generalizing i with
  | nil => simp at h
  | cons e ds ih =>
    have hv : digitsValue (e :: ds) = e.toNat * 32 ^ ds.length + digitsValue ds := by
      simp [digitsValue, horner_cons]
    have hlt := digitsValue_lt ds
    cases i with
    | zero =>
      obtain rfl : e = d := by simpa using h
      have hpos : 0 < 32 ^ ds.length := Nat.pos_of_ne_zero (by positivity)
      simp only [List.length_cons, Nat.add_sub_cancel, Nat.sub_zero]
      rw [hv, Nat.mul_comm, Nat.mul_add_div hpos, Nat.div_eq_of_lt hlt, Nat.add_zero]
      exact (Nat.mod_eq_of_lt e.isLt).symm
    | succ i =>
      have hi : i < ds.length := by
        by_contra hc
        rw [List.getElem?_cons_succ, List.getElem?_eq_none (by omega)] at h
        cases h
      rw [ih i (by simpa using h), hv]
      simp only [List.length_cons, Nat.add_sub_cancel]
      have e1 : ds.length - (i + 1) = ds.length - 1 - i := by omega
      have e2 : 32 ^ ds.length = 32 ^ (ds.length - 1 - i) * (32 * 32 ^ i) := by
        rw [← pow_succ', ← pow_add]; congr 1; omega
      rw [e1, e2]
      have hpos : 0 < 32 ^ (ds.length - 1 - i) := Nat.pos_of_ne_zero (by positivity)
      rw [show e.toNat * (32 ^ (ds.length - 1 - i) * (32 * 32 ^ i)) =
        32 ^ (ds.length - 1 - i) * (32 * (32 ^ i * e.toNat)) by ring, Nat.mul_add_div hpos,
        Nat.mul_add_mod]

/-- Sixteen alphabet characters are the override of the payload they spell (R135). -/
theorem overrideOf_fold {w : Vector Word 16} {a : Nat} (h : foldSlots w.toList = .ok a) :
    OverrideOf (BitVec.ofNat 80 a) w := by
  obtain ⟨ds, h1, h2, -⟩ := foldFrom_ok h
  have hlen : ds.length = 16 := by simpa using (congrArg List.length h1).symm
  have ha : a = digitsValue ds := by simpa using h2
  have hlt := digitsValue_lt ds
  rw [hlen] at hlt
  intro j
  have hj := j.isLt
  have hd : ds[j.val]? = some (ds[j.val]'(by omega)) := List.getElem?_eq_getElem (by omega)
  have hw : w[j.val] = code (ds[j.val]'(by omega)) := by
    have := toList_getElem? w j.val hj
    rw [h1, List.getElem?_map, hd] at this
    exact (Option.some.inj this).symm
  rw [hw]
  congr 1
  apply BitVec.eq_of_toNat_eq
  rw [digit_of_value ds j.val _ hd, BitVec.extractLsb'_toNat, BitVec.toNat_ofNat,
    Nat.shiftRight_eq_div_pow, ha, hlen, Nat.mod_eq_of_lt (a := digitsValue ds) (by omega),
    show 32 = 2 ^ 5 from rfl, ← pow_mul]
  congr 3; omega

/-- An override of a payload is read as that payload. -/
theorem foldSlots_override {p : Payload} {w : Vector Word 16} (h : OverrideOf p w) :
    foldSlots w.toList = .ok p.toNat := by
  obtain ⟨a, ha⟩ := foldSlots_isOk (us := w.toList) fun u hu => by
    obtain ⟨k, hk, rfl⟩ := Vector.mem_iff_getElem.mp (Vector.mem_toList_iff.mp hu)
    rw [h ⟨k, hk⟩, idx_code]; rfl
  rw [ha]
  have hlt := foldSlots_lt ha
  rw [Vector.length_toList] at hlt
  obtain ⟨ds, h1, h2, -⟩ := foldFrom_ok ha
  have hlen : ds.length = 16 := by simpa using (congrArg List.length h1).symm
  have hds : ds = List.ofFn fun j : Fin 16 => p.extractLsb' (75 - 5 * j.val) 5 := by
    have hinj : Function.Injective code := fun d e hde => by
      have := congrArg idx hde
      simpa using this
    apply List.map_injective_iff.mpr hinj
    rw [← h1]
    apply List.ext_getElem (by simp)
    intro k hk _
    have hk' : k < 16 := by simpa using hk
    rw [List.getElem_map, List.getElem_ofFn, Vector.getElem_toList]
    exact h ⟨k, hk'⟩
  have hv : digitsValue ds = p.toNat := by
    have hd := horner_digits 32 16 p.toNat
    have hp : p.toNat % 32 ^ 16 = p.toNat := Nat.mod_eq_of_lt (by have := p.isLt; omega)
    rw [hp] at hd
    rw [hds, digitsValue, List.map_ofFn]
    conv_rhs => rw [← hd]
    congr 2; funext j
    rw [Function.comp_apply, BitVec.extractLsb'_toNat, Nat.shiftRight_eq_div_pow,
      show 32 = 2 ^ 5 from rfl, ← pow_mul]
    congr 3; omega
  congr 1
  have h3 : a = digitsValue ds := by simpa using h2
  rw [h3, hv]

end Sys2Proof.Machine
end

