-- ==== Sys2Proof/Laws/Success.lean ====
section
/-!
SUPPORT. What each command leaves when its operands pass their checks, and what a success says of
them; and the registers' contents as their words in the window determine them.
-/

namespace Sys2Proof.Machine

theorem setWidth_time (s : State) : s.time.setWidth 48 = lowStamp s := by
  apply BitVec.eq_of_toNat_eq
  simp [BitVec.extractLsb'_toNat]

/-- Under REJECT an accepted `TIME` is its low 48 bits (R130). -/
theorem lowStamp_of_accepted {s : State} (h : acceptsTime s) (h0 : s.tspol = 0#1) :
    (lowStamp s).setWidth 64 = s.time := by
  rcases h with h | h
  · rw [h0] at h; exact absurd h (by decide)
  · rw [← setWidth_time]; exact setWidth_of_accepted h.1 h.2

theorem ts48_ok {s : State} (h : acceptsTime s) : ts48 s = .ok (lowStamp s) := by
  rw [ts48_accepts h, setWidth_time]

/-- The timestamp check passes exactly an accepted `TIME`. -/
theorem ts48_split (s : State) :
    (acceptsTime s ∧ ts48 s = .ok (lowStamp s)) ∨
    (¬ acceptsTime s ∧ ts48 s = .bad .timestampOutOfRange 0#5 0#32) := by
  rcases ts48_cases s with ⟨h1, h2⟩ | ⟨h1, h2, h3⟩
  · have ha : acceptsTime s := by
      rcases h2 with h2 | h2
      · exact .inl (by have := s.tspol.isLt; apply BitVec.eq_of_toNat_eq; simp; by_contra hc; exact h2 (by apply BitVec.eq_of_toNat_eq; simp; omega))
      · exact .inr h2
    exact .inl ⟨ha, ts48_ok ha⟩
  · refine .inr ⟨?_, h1⟩
    rintro (h | h)
    · rw [h2] at h; exact absurd h (by decide)
    · omega

/-- The override is accepted exactly when it spells a payload, and else its error is raised. -/
theorem payFromStr_split (s : State) :
    (∃ p, s.pstrlen = 16#32 ∧ payFromStr s = .ok p ∧ OverrideOf p s.pstr) ∨
    (∃ pos ch, payFromStr s = .bad .invalidPayloadEncoding pos ch) := by
  by_cases hl : s.pstrlen = 16#32
  · cases hf : foldSlots s.pstr.toList with
    | ok a => exact .inl ⟨_, hl, (payFromStr_ok hl hf).1, overrideOf_fold hf⟩
    | bad j u => exact .inr ⟨_, _, payFromStr_bad hl hf⟩
  · exact .inr ⟨_, _, payFromStr_length hl⟩

theorem noError_complete (s : State) : noError (complete s) := 
  ⟨rfl, rfl, rfl, (by decide : statusWord 0#4 0#5 = 0#32), rfl⟩

/-- The block as before but for the status and the record of a fault: what a failure leaves. -/
theorem failed_sameButStatus {s t : State} (h : failed s t) : sameButStatus s t := by
  obtain ⟨e, pos, ch, rs, -, rfl⟩ := h
  rfl

/-! The commands on operands that pass. -/

theorem exec_enc (s : State) :
    exec .enc s = .next (complete (putStr (enc26 s.val) (noteRead valReads s))) := rfl

theorem exec_dec {s : State} {v : Value} (h : textOperand s = .ok v) :
    exec .dec s = .next (complete (putVal v (noteRead (textReads s) s))) := by
  rw [exec, execDec, h, guarded_ok]

theorem exec_pack {s : State} (h : acceptsTime s) :
    exec .pack s = .next (complete (putBuf (pack16 (lowStamp s) s.pay)
      (noteRead (timeReads ++ payReads) s))) := by
  rw [exec, execPack, ts48_ok h, guarded_ok, guarded_ok, noteRead_noteRead]

theorem exec_packs {s : State} {p : Payload} (h : acceptsTime s) (hp : payFromStr s = .ok p) :
    exec .packs s = .next (complete (putBuf (pack16 (lowStamp s) p)
      (noteRead (timeReads ++ payStrReads s) s))) := by
  rw [exec, execPacks, ts48_ok h, hp, guarded_ok, guarded_ok, noteRead_noteRead]

theorem exec_packr {s : State} (h : acceptsTime s) :
    exec .packr s = .next (complete (putBuf
      (pack16 (lowStamp s) (drawPayload (Config.entropyDraw s.draws)))
      (countDraw (noteRead timeReads s)))) := by
  rw [exec, execPackr, ts48_ok h, guarded_ok, withDraw, noteRead_draws]

theorem exec_gens {s : State} {p : Payload} (h : acceptsTime s) (hp : payFromStr s = .ok p) :
    exec .gens s = .next (complete (putStr (enc26 (lowStamp s ++ p))
      (noteRead (timeReads ++ payStrReads s) s))) := by
  rw [exec, execGens, ts48_ok h, hp, guarded_ok, guarded_ok, noteRead_noteRead, be16_pack16]

theorem exec_genr {s : State} (h : acceptsTime s) :
    exec .genr s = .next (complete (putStr
      (enc26 (lowStamp s ++ drawPayload (Config.entropyDraw s.draws)))
      (countDraw (noteRead timeReads s)))) := by
  rw [exec, execGenr, ts48_ok h, guarded_ok, withDraw, noteRead_draws]

theorem exec_b2s {s : State} (h : s.buflen = 16#32) :
    exec .b2s s = .next (complete (putStr (enc26 (be16 s.buf)) (noteRead (binaryReads s) s))) := by
  rw [exec, execB2s, binaryOperand_ok h, guarded_ok]

theorem exec_s2b {s : State} {v : Value} (h : textOperand s = .ok v) :
    exec .s2b s = .next (complete (putBuf (splitBytes v) (noteRead (textReads s) s))) := by
  rw [exec, execS2b, h, guarded_ok]

theorem exec_dtime {s : State} {ts : Stamp} (h : textTimeOperand s = .ok ts) :
    exec .dtime s = .next (complete (putTime (ts.setWidth 64) (noteRead (textTimeReads s) s))) := by
  rw [exec, execDtime, h, guarded_ok]

theorem exec_unpack {s : State} (h : s.buflen = 16#32) :
    exec .unpack s = .next (complete (putPay (payloadOf s.buf)
      (putTime ((stampOf s.buf).setWidth 64) (noteRead (binaryReads s) s)))) := by
  rw [exec, execUnpack, binaryOperand_ok h, guarded_ok]

/-! What a success says of the operands. -/

theorem errorNumber_ne_zero (e : ErrorCode) : errorNumber e ≠ 0#4 := by cases e <;> decide

section
variable {s t : State}

theorem dec_success (h : exec .dec s = .next t) (he : t.err = 0#4) :
    ∃ v, s.strlen = 26#32 ∧ s.str = enc26 v ∧
      t = complete (putVal v (noteRead (textReads s) s)) := by
  by_cases hl : s.strlen = 26#32
  · cases hf : foldText s.str.toList with
    | ok a =>
      obtain ⟨h1, h2⟩ := textOperand_ok hl hf
      rw [exec_dec h1] at h
      cases h
      exact ⟨_, hl, h2.symm, rfl⟩
    | bad i u =>
      rw [exec, execDec, textOperand_bad hl hf] at h
      cases h; cases he
  · rw [exec, execDec, textOperand_length hl] at h
    cases h; cases he

theorem s2b_success (h : exec .s2b s = .next t) (he : t.err = 0#4) :
    ∃ v, s.strlen = 26#32 ∧ s.str = enc26 v ∧
      t = complete (putBuf (splitBytes v) (noteRead (textReads s) s)) := by
  by_cases hl : s.strlen = 26#32
  · cases hf : foldText s.str.toList with
    | ok a =>
      obtain ⟨h1, h2⟩ := textOperand_ok hl hf
      rw [exec_s2b h1] at h
      cases h
      exact ⟨_, hl, h2.symm, rfl⟩
    | bad i u =>
      rw [exec, execS2b, textOperand_bad hl hf] at h
      cases h; cases he
  · rw [exec, execS2b, textOperand_length hl] at h
    cases h; cases he

theorem dtime_success (h : exec .dtime s = .next t) (he : t.err = 0#4) :
    ∃ a, s.strlen = 26#32 ∧ foldSlots (s.str.toList.take 10) = .ok a ∧ a ≤ 2 ^ 48 - 1 ∧
      t = complete (putTime ((BitVec.ofNat 48 a).setWidth 64) (noteRead (textTimeReads s) s)) := by
  by_cases hl : s.strlen = 26#32
  · cases hf : foldSlots (s.str.toList.take 10) with
    | ok a =>
      by_cases hr : a ≤ 2 ^ 48 - 1
      · rw [exec_dtime (textTimeOperand_ok hl hf hr)] at h
        cases h
        exact ⟨a, hl, rfl, hr, rfl⟩
      · rw [exec, execDtime, textTimeOperand_range hl hf (by omega)] at h
        cases h; cases he
    | bad i u =>
      rw [exec, execDtime, textTimeOperand_bad hl hf] at h
      cases h; cases he
  · rw [exec, execDtime, textTimeOperand_length hl] at h
    cases h; cases he

theorem pack_success (h : exec .pack s = .next t) (he : t.err = 0#4) :
    acceptsTime s ∧
      t = complete (putBuf (pack16 (lowStamp s) s.pay) (noteRead (timeReads ++ payReads) s)) := by
  rcases ts48_split s with ⟨h1, -⟩ | ⟨-, h1⟩
  · rw [exec_pack h1] at h
    cases h
    exact ⟨h1, rfl⟩
  · rw [exec, execPack, h1] at h
    cases h; cases he

theorem packs_success (h : exec .packs s = .next t) (he : t.err = 0#4) :
    ∃ p, acceptsTime s ∧ s.pstrlen = 16#32 ∧ OverrideOf p s.pstr ∧
      t = complete (putBuf (pack16 (lowStamp s) p) (noteRead (timeReads ++ payStrReads s) s)) := by
  rcases ts48_split s with ⟨h1, h1'⟩ | ⟨-, h1⟩
  · rcases payFromStr_split s with ⟨p, hl, h2, h3⟩ | ⟨pos, ch, h2⟩
    · rw [exec_packs h1 h2] at h
      cases h
      exact ⟨p, h1, hl, h3, rfl⟩
    · rw [exec, execPacks, h1', h2] at h
      cases h; cases he
  · rw [exec, execPacks, h1] at h
    cases h; cases he

theorem packr_success (h : exec .packr s = .next t) (he : t.err = 0#4) :
    acceptsTime s ∧ t = complete (putBuf
      (pack16 (lowStamp s) (drawPayload (Config.entropyDraw s.draws)))
      (countDraw (noteRead timeReads s))) := by
  rcases ts48_split s with ⟨h1, -⟩ | ⟨-, h1⟩
  · rw [exec_packr h1] at h
    cases h
    exact ⟨h1, rfl⟩
  · rw [exec, execPackr, h1] at h
    cases h; cases he

theorem gens_success (h : exec .gens s = .next t) (he : t.err = 0#4) :
    ∃ p, acceptsTime s ∧ s.pstrlen = 16#32 ∧ OverrideOf p s.pstr ∧
      t = complete (putStr (enc26 (lowStamp s ++ p)) (noteRead (timeReads ++ payStrReads s) s)) := by
  rcases ts48_split s with ⟨h1, h1'⟩ | ⟨-, h1⟩
  · rcases payFromStr_split s with ⟨p, hl, h2, h3⟩ | ⟨pos, ch, h2⟩
    · rw [exec_gens h1 h2] at h
      cases h
      exact ⟨p, h1, hl, h3, rfl⟩
    · rw [exec, execGens, h1', h2] at h
      cases h; cases he
  · rw [exec, execGens, h1] at h
    cases h; cases he

theorem genr_success (h : exec .genr s = .next t) (he : t.err = 0#4) :
    acceptsTime s ∧ t = complete (putStr
      (enc26 (lowStamp s ++ drawPayload (Config.entropyDraw s.draws)))
      (countDraw (noteRead timeReads s))) := by
  rcases ts48_split s with ⟨h1, -⟩ | ⟨-, h1⟩
  · rw [exec_genr h1] at h
    cases h
    exact ⟨h1, rfl⟩
  · rw [exec, execGenr, h1] at h
    cases h; cases he

theorem b2s_success (h : exec .b2s s = .next t) (he : t.err = 0#4) :
    s.buflen = 16#32 ∧
      t = complete (putStr (enc26 (be16 s.buf)) (noteRead (binaryReads s) s)) := by
  by_cases hl : s.buflen = 16#32
  · rw [exec_b2s hl] at h
    cases h
    exact ⟨hl, rfl⟩
  · rw [exec, execB2s, binaryOperand_length hl] at h
    cases h; cases he

theorem unpack_success (h : exec .unpack s = .next t) (he : t.err = 0#4) :
    s.buflen = 16#32 ∧
      t = complete (putPay (payloadOf s.buf)
        (putTime ((stampOf s.buf).setWidth 64) (noteRead (binaryReads s) s))) := by
  by_cases hl : s.buflen = 16#32
  · rw [exec_unpack hl] at h
    cases h
    exact ⟨hl, rfl⟩
  · rw [exec, execUnpack, binaryOperand_length hl] at h
    cases h; cases he

end

/-! A register's contents from its words (spec/30_encoding.md R84). -/

/-- Two bit vectors that agree on every 32-bit word from the low end are the same. -/
theorem eq_of_words {n : Nat} {x y : BitVec n}
    (h : ∀ i, i < n → ∃ lo, lo ≤ i ∧ i < lo + 32 ∧ x.extractLsb' lo 32 = y.extractLsb' lo 32) :
    x = y := by
  apply BitVec.eq_of_getLsbD_eq
  intro i hi
  obtain ⟨lo, h1, h2, h3⟩ := h i hi
  have := congrArg (·.getLsbD (i - lo)) h3
  have e : lo + (i - lo) = i := by omega
  simpa [e, show i - lo < 32 by omega] using this

section
variable {s s' : State}

theorem val_of_words (h : ∀ w, readReg s (.val w) = readReg s' (.val w)) : s.val = s'.val := by
  apply eq_of_words
  intro i hi
  refine ⟨96 - 32 * (3 - i / 32), by omega, by omega, ?_⟩
  exact h ⟨3 - i / 32, by omega⟩

theorem time_of_words (h : readReg s .timeh = readReg s' .timeh)
    (l : readReg s .timel = readReg s' .timel) : s.time = s'.time := by
  apply eq_of_words
  intro i hi
  by_cases hc : i < 32
  · exact ⟨0, by omega, by omega, l⟩
  · exact ⟨32, by omega, by omega, h⟩

theorem pay_of_words (h : ∀ w, readReg s (.pay w) = readReg s' (.pay w)) : s.pay = s'.pay := by
  apply eq_of_words
  intro i hi
  refine ⟨64 - 32 * (2 - i / 32), by omega, by omega, ?_⟩
  exact h ⟨2 - i / 32, by omega⟩

theorem buf_of_words (h : ∀ w, readReg s (.buf w) = readReg s' (.buf w)) : s.buf = s'.buf := by
  apply Vector.ext
  intro k hk
  have h1 := congrArg (·.extractLsb' (24 - 8 * (k % 4)) 8) (h ⟨k / 4, by omega⟩)
  have e := bufWord_byte s.buf ⟨k / 4, by omega⟩ ⟨k % 4, by omega⟩
  have e' := bufWord_byte s'.buf ⟨k / 4, by omega⟩ ⟨k % 4, by omega⟩
  have hk4 : 4 * (k / 4) + k % 4 = k := by omega
  simp only [hk4] at e e'
  rw [← e, ← e']
  exact h1

theorem tspol_of_word (h : readReg s .ctrl = readReg s' .ctrl) : s.tspol = s'.tspol := by
  have e : ∀ b : BitVec 1, (0#31 ++ b : Word).extractLsb' 0 1 = b := by decide
  have := congrArg (·.extractLsb' 0 1) h
  simp only [readReg, ctrlWord] at this
  exact (e _).symm.trans (this.trans (e _))

theorem str_of_words (h : ∀ i, readReg s (.str i) = readReg s' (.str i)) : s.str = s'.str :=
  Vector.ext fun i hi => h ⟨i, hi⟩

theorem pstr_of_words (h : ∀ j, readReg s (.pstr j) = readReg s' (.pstr j)) : s.pstr = s'.pstr :=
  Vector.ext fun j hj => h ⟨j, hj⟩

end

end Sys2Proof.Machine
end

