-- ==== Sys2Proof/Laws/Reads.lean ====
section
/-!
SUPPORT. Which words each operand form reads, by what its check answers, and what an error reports
as the host reads it.
-/

namespace Sys2Proof.Machine

/-- A read records no fault exactly when none was recorded and every word read was written. -/
theorem noteRead_faulted_iff (rs : List Reg) (s : State) :
    (noteRead rs s).faulted = false ↔
      s.faulted = false ∧ ∀ r ∈ rs, isWritten s r = true := by
  simp

/-- The same for a set of words that has the list's members. -/
theorem readsExactly_of_faulted {s t : State} {rs : List Reg} {p : Reg → Prop}
    (ht : t.faulted = (noteRead rs s).faulted) (h : ∀ r, r ∈ rs ↔ p r) : readsExactly s t p := by
  unfold readsExactly
  rw [ht, noteRead_faulted_iff]
  simp only [h]

/-- What an error reports, in the status and as the host reads `STATUS` and `ERRCHAR`. -/
theorem reports_raise (e : ErrorCode) (pos : BitVec 5) (ch : Word) (s : State) :
    reports (raise e pos ch s) (errorNumber e).toNat pos.toNat ch := by
  have h : ∀ (p : BitVec 5) (n : BitVec 4), (statusWord n p).toNat = p.toNat * 2 ^ 8 + n.toNat := by
    decide
  exact ⟨rfl, rfl, rfl, h _ _, rfl⟩

theorem timeReads_iff (r : Reg) : r ∈ timeReads ↔ timeReg r = true := by
  cases r <;> simp [timeReads, timeReg]

/-- The first `n` slots of a list of slots, by number. -/
theorem mem_firstSlots {m n : Nat} {f : Fin m → Reg} (r : Reg) :
    r ∈ ((List.finRange m).take n).map f ↔ ∃ k : Fin m, k.val < n ∧ r = f k := by
  simp only [List.mem_map, List.mem_take_iff_getElem, List.getElem_finRange, List.length_finRange]
  constructor
  · rintro ⟨k, ⟨i, hi, rfl⟩, rfl⟩
    exact ⟨⟨i, by omega⟩, by simp; omega, rfl⟩
  · rintro ⟨k, hk, rfl⟩
    exact ⟨k, ⟨k.val, by omega, by ext; simp⟩, rfl⟩

section
variable {s : State}

theorem payStrReads_length (h : s.pstrlen ≠ 16#32) (r : Reg) :
    r ∈ payStrReads s ↔ r = .pstrlen := by simp [payStrReads, h]

theorem payStrReads_bad {j : Nat} {u : Word} (h : s.pstrlen = 16#32)
    (hb : foldSlots s.pstr.toList = .bad j u) (r : Reg) :
    r ∈ payStrReads s ↔ r = .pstrlen ∨ ∃ k : Fin 16, k.val ≤ j ∧ r = .pstr k := by
  rw [payStrReads, if_pos h, hb, List.mem_cons, mem_firstSlots]
  simp only [slotsRead, Nat.lt_succ_iff]

theorem payStrReads_ok {a : Nat} (h : s.pstrlen = 16#32)
    (ha : foldSlots s.pstr.toList = .ok a) (r : Reg) :
    r ∈ payStrReads s ↔ r = .pstrlen ∨ ∃ k : Fin 16, r = .pstr k := by
  rw [payStrReads, if_pos h, ha, List.mem_cons, mem_firstSlots]
  simp [slotsRead]

theorem textReads_length (h : s.strlen ≠ 26#32) (r : Reg) :
    r ∈ textReads s ↔ r = .strlen := by simp [textReads, h]

theorem textReads_bad {i : Nat} {u : Word} (h : s.strlen = 26#32)
    (hb : foldText s.str.toList = .bad i u) (r : Reg) :
    r ∈ textReads s ↔ r = .strlen ∨ ∃ k : Fin 26, k.val ≤ i ∧ r = .str k := by
  rw [textReads, if_pos h, hb, List.mem_cons, mem_firstSlots]
  simp only [slotsRead, Nat.lt_succ_iff]

theorem textReads_ok {a : Nat} (h : s.strlen = 26#32)
    (ha : foldText s.str.toList = .ok a) (r : Reg) :
    r ∈ textReads s ↔ r = .strlen ∨ ∃ k : Fin 26, r = .str k := by
  rw [textReads, if_pos h, ha, List.mem_cons, mem_firstSlots]
  simp [slotsRead]

theorem textTimeReads_length (h : s.strlen ≠ 26#32) (r : Reg) :
    r ∈ textTimeReads s ↔ r = .strlen := by simp [textTimeReads, h]

theorem textTimeReads_bad {i : Nat} {u : Word} (h : s.strlen = 26#32)
    (hb : foldSlots (s.str.toList.take 10) = .bad i u) (r : Reg) :
    r ∈ textTimeReads s ↔ r = .strlen ∨ ∃ k : Fin 26, k.val ≤ i ∧ r = .str k := by
  rw [textTimeReads, if_pos h, hb, List.mem_cons, mem_firstSlots]
  simp only [slotsRead, Nat.lt_succ_iff]

theorem textTimeReads_ok {a : Nat} (h : s.strlen = 26#32)
    (ha : foldSlots (s.str.toList.take 10) = .ok a) (r : Reg) :
    r ∈ textTimeReads s ↔ r = .strlen ∨ ∃ k : Fin 26, k.val < 10 ∧ r = .str k := by
  rw [textTimeReads, if_pos h, ha, List.mem_cons, mem_firstSlots]
  simp only [slotsRead]

theorem binaryReads_length (h : s.buflen ≠ 16#32) (r : Reg) :
    r ∈ binaryReads s ↔ r = .buflen := by simp [binaryReads, h]

theorem binaryReads_ok (h : s.buflen = 16#32) (r : Reg) :
    r ∈ binaryReads s ↔ bufReg r = true := by
  rw [binaryReads, if_pos h]
  cases r with
  | buf w => fin_cases w <;> simp [bufReads, bufReg]
  | _ => simp [bufReads, bufReg]

end

end Sys2Proof.Machine
end

