-- ==== Sys2Proof/Machine/HostProgram.lean ====
section
/-!
DEFINITION. The host syntax: the accesses of spec/30_encoding.md R90, the exact expansions of the
pseudo-instructions of R91, and a program as its list of bus transactions (R92).
-/

namespace Sys2Proof.Machine

/-- `WR reg, imm32` (R90). -/
def wr (r : Reg) (v : Word) : HostAction := .write .w32 (offsetOf r) v

/-- `RD reg` (R90). -/
def rd (r : Reg) : HostAction := .read .w32 (offsetOf r)

/-- The Unicode code point of a character, as one slot holds it (R91, R242). -/
def codepoint (c : Char) : Word := BitVec.ofNat 32 c.toNat

/-- The characters of a string, each with the offset of its slot, from the slot at offset `off`. -/
def slotWrites (off : Nat) : List Char → List HostAction
  | [] => []
  | c :: cs => .write .w32 (BitVec.ofNat 12 off) (codepoint c) :: slotWrites (off + 4) cs

/-- A length as the host presents it: saturated, never reduced modulo 2^32 (R91, R242). -/
def saturatedLength (n : Nat) : Word := BitVec.ofNat 32 (min n (2 ^ 32 - 1))

/-- The policy bit that `SETPOL` writes (R91, spec/10_state.md R26). -/
def policyWord : TsPolicy → Word
  | .reject => 0#32
  | .truncate => 1#32

/-- The bus transactions of one line (R90, R91). -/
def expand : HostLine → List HostAction
  | .wr r v => [wr r v]
  | .rd r => [rd r]
  | .rdExpect r _ => [rd r]
  | .command i => [wr .cmd (encode i)]
  | .cmdw w => [wr .cmd w]
  | .setpol p => [wr .ctrl (policyWord p)]
  | .ldval v => [wr (.val 0) (v.extractLsb' 96 32), wr (.val 1) (v.extractLsb' 64 32),
      wr (.val 2) (v.extractLsb' 32 32), wr (.val 3) (v.extractLsb' 0 32)]
  | .ldtime t => [wr .timeh ((BitVec.ofInt 64 t).extractLsb' 32 32),
      wr .timel ((BitVec.ofInt 64 t).extractLsb' 0 32)]
  | .ldpay p => [wr (.pay 0) ((p.extractLsb' 64 16).setWidth 32), wr (.pay 1) (p.extractLsb' 32 32),
      wr (.pay 2) (p.extractLsb' 0 32)]
  | .ldbuf b => [wr (.buf 0) (bufWord b 0), wr (.buf 1) (bufWord b 1), wr (.buf 2) (bufWord b 2),
      wr (.buf 3) (bufWord b 3), wr .buflen 16#32]
  | .ldstr s => wr .strlen (saturatedLength s.length) :: slotWrites 0x100 (s.take Config.strCap)
  | .ldpstr s => wr .pstrlen (saturatedLength s.length) :: slotWrites 0x180 (s.take Config.pstrCap)
  | .rdstr => rd .strlen :: (List.finRange 26).map fun i => rd (.str i)
  | .rdbuf => [rd (.buf 0), rd (.buf 1), rd (.buf 2), rd (.buf 3)]
  | .rdtime => [rd .timeh, rd .timel]
  | .rdpay => [rd (.pay 0), rd (.pay 1), rd (.pay 2)]
  | .check => [rd .status, rd .errchar]

/-- A host program's encoding: its bus transactions in order (R92). -/
def assemble (p : List HostLine) : List HostAction := p.flatMap expand

/-- The state with a program as the host's list: loading it from outside (log 1). -/
def withProgram (p : List HostLine) (s : State) : State := withHost (assemble p) s

end Sys2Proof.Machine
end

