-- ==== Sys2Proof/Tests/Slice0.lean ====
section
/-!
SUPPORT. The model's own tests. Every expected value is one of spec/95_test_vectors.md (its id stands
in the docstring) or of the rule named; then one witness for the hypotheses of each statement.
-/

namespace Sys2Proof.Tests

open Sys2Proof.Machine

/-! Small states. -/

/-- The codes of 26 characters; a short list goes on with `0`. -/
def text26 (cs : List Char) : Vector Word 26 := Vector.ofFn fun i => codepoint (cs.getD i.val '0')

/-- The codes of 16 characters; a short list goes on with `0`. -/
def text16 (cs : List Char) : Vector Word 16 := Vector.ofFn fun j => codepoint (cs.getD j.val '0')

/-- Every operand word written. -/
def allWritten : Written where
  val := BitVec.allOnes 4
  buf := BitVec.allOnes 4
  buflen := true
  strlen := true
  pstrlen := true
  time := BitVec.allOnes 2
  pay := BitVec.allOnes 3
  str := BitVec.allOnes 26
  pstr := BitVec.allOnes 16

/-- After reset, with every operand word written as 0. -/
def zeros : State := { State.reset with written := allWritten }

/-- `STR` holds these characters, `STRLEN` is 26. -/
def withText (cs : List Char) : State := { zeros with str := text26 cs, strlen := 26#32 }

/-- `BUF` holds these bytes, `BUFLEN` is 16. -/
def withBytes (b : Vector Byte 16) : State := { zeros with buf := b, buflen := 16#32 }

/-- `TIME` holds `t`, and `PSTR` these characters with length 16. -/
def withOverride (t : Int) (cs : List Char) : State :=
  { zeros with time := BitVec.ofInt 64 t, pstr := text16 cs, pstrlen := 16#32 }

/-- A command answers a next state that passes a check. -/
def runs (i : Instr) (s : State) (p : State → Bool) : Bool :=
  match exec i s with
  | .next t => p t
  | .fault _ => false
  | .refused _ => false

/-- The host's next action answers a next state that passes a check. -/
def acts (a : HostAction) (s : State) (p : State → Bool) : Bool :=
  match step { s with host := [a] } with
  | .next t => p t
  | .fault _ => false
  | .refused _ => false

/-- The 16 bytes of vectors P6, B5, S1 and U1. -/
def bytesP6 : Vector Byte 16 :=
  #v[0x01#8, 0x56#8, 0x3D#8, 0xF3#8, 0x64#8, 0x81#8, 0x52#8, 0xD8#8,
        0xD7#8, 0x3E#8, 0x11#8, 0x94#8, 0xE9#8, 0x5B#8, 0x5F#8, 0x19#8]

/-- The text of vectors G1, B5, S1 and T1. -/
def textG1 : List Char :=
  (['0', '1', 'A', 'R', 'Y', 'Z', '6', 'S', '4', '1', 'A', 'B', 'C'] ++
        ['D', 'E', 'F', 'G', 'H', 'J', 'K', 'M', 'N', 'P', 'Q', 'R', 'S'])

/-- The override of vectors P6 and G1. -/
def overrideP6 : List Char :=
  (['A', 'B', 'C', 'D', 'E', 'F', 'G', 'H', 'J', 'K', 'M', 'N', 'P'] ++
        ['Q', 'R', 'S'])

/-- The draw of vectors P9 and G3. -/
def drawP9 : Vector Byte 10 :=
  #v[0x00#8, 0x11#8, 0x22#8, 0x33#8, 0x44#8, 0x55#8, 0x66#8, 0x77#8,
        0x88#8, 0x99#8]

/-! Ill-formed terms, each refused by its check. -/

/-- R80: a command has no field. -/
theorem test_wellformed_commands :
    ∀ i ∈ [Instr.enc, .dec, .pack, .packs, .packr, .gens, .genr, .b2s, .s2b, .dtime, .unpack],
      i.wellFormed = true := by decide

/-- I3. -/
theorem test_illformed_word_reserved :
    commandWordWellFormed 0x00000101#32 = false := by decide

/-- I1. -/
theorem test_illformed_word_zero :
    commandWordWellFormed 0x00000000#32 = false := by decide

/-- I2. -/
theorem test_illformed_word_op :
    commandWordWellFormed 0x0000000C#32 = false := by decide

/-- M5. -/
theorem test_illformed_read_width :
    (HostAction.read .w8 0x004#12).wellFormed = false := by decide

/-- M6. -/
theorem test_illformed_read_aligned :
    (HostAction.read .w32 0x002#12).wellFormed = false := by decide

/-- R52. -/
theorem test_illformed_write_width :
    (HostAction.write .w64 0x000#12 0#32).wellFormed = false := by decide

/-- R53. -/
theorem test_illformed_write_aligned :
    (HostAction.write .w32 0x001#12 0#32).wellFormed = false := by decide

/-- R91: `LDTIME` takes a 64-bit two's complement value. -/
theorem test_illformed_ldtime :
    (HostLine.ldtime (2 ^ 63)).wellFormed = false ∧
      (HostLine.ldtime (-(2 ^ 63) - 1)).wellFormed = false ∧
      (HostLine.ldtime (-(2 ^ 63))).wellFormed = true := by decide

/-! Decoding, by words written out from R80 and R82: `RSVD` in [31:8], `OP` in [7:0]. -/

theorem test_decode_codec :
    decode 0b00000000000000000000000000000001#32 = .instr .enc ∧
      decode 0b00000000000000000000000000000010#32 = .instr .dec := by decide

theorem test_decode_engine_encode :
    decode 0b00000000000000000000000000000011#32 = .instr .pack ∧
      decode 0b00000000000000000000000000000110#32 = .instr .gens ∧
      decode 0b00000000000000000000000000001000#32 = .instr .b2s := by decide

theorem test_decode_engine_decode :
    decode 0b00000000000000000000000000001001#32 = .instr .s2b ∧
      decode 0b00000000000000000000000000001010#32 = .instr .dtime ∧
      decode 0b00000000000000000000000000001011#32 = .instr .unpack := by decide

/-- I1 to I5. -/
theorem test_decode_illegal :
    decode 0x00000000#32 = .illegal .undefinedOp ∧ decode 0x0000000C#32 = .illegal .undefinedOp ∧
      decode 0x00000101#32 = .illegal .reservedBits ∧
      decode 0xFFFFFFFF#32 = .illegal .reservedBits ∧ decode 0x000000FF#32 = .illegal .undefinedOp := by decide

/-- The host's numbering of the table's bits. -/
theorem test_table_word :
    decodeTableWord 32 0x06 = some .gens ∧ decodeTableWord 8 0x106 = some .gens ∧
      decodeTableWord 32 0x106 = none := by decide

/-! One step of each command. -/

/-- E6. -/
theorem test_enc_e6 :
    runs .enc { zeros with val := 0x0123456789ABCDEF0123456789ABCDEF#128 } (fun t =>
      t.str == text26
        (['0', '1', '4', 'D', '2', 'P', 'F', '2', 'D', 'B', 'S', 'Q', 'Q'] ++
        ['G', '2', '8', 'T', '5', 'C', 'Y', '4', 'T', 'Q', 'K', 'F', 'F']) &&
      t.strlen == 26#32) = true := by decide

/-- E7: the top three bits make the first character. -/
theorem test_enc_e7 :
    runs .enc { zeros with val := 0x20000000000000000000000000000000#128 } (fun t =>
      t.str == text26 ['1']) = true := by decide

/-- D13. -/
theorem test_dec_d13 :
    runs .dec (withText textG1) (fun t =>
      t.val == 0x01563DF3648152D8D73E1194E95B5F19#128 && t.err == 0#4) = true := by decide

/-- D15: position 0 is checked first. -/
theorem test_dec_d15 :
    runs .dec (withText (['8'] ++ List.replicate 24 '0' ++ ['!'])) (fun t =>
      statusWord t.err t.errPos == 0x00000002#32 && t.errChar == 0x38#32 && t.val == 0#128) = true := by decide

/-- P1. -/
theorem test_pack_p1 :
    runs .pack { zeros with time := 1469918176385#64 } (fun t =>
      t.buf == #v[0x01#8, 0x56#8, 0x3D#8, 0xF3#8, 0x64#8, 0x81#8, 0x00#8, 0x00#8,
        0x00#8, 0x00#8, 0x00#8, 0x00#8, 0x00#8, 0x00#8, 0x00#8, 0x00#8] &&
      t.buflen == 16#32) = true := by decide

/-- P5b: TRUNCATE takes the low 48 bits. -/
theorem test_pack_p5b :
    runs .pack { zeros with tspol := 1#1, time := BitVec.ofInt 64 (-1) } (fun t =>
      t.buf == #v[0xFF#8, 0xFF#8, 0xFF#8, 0xFF#8, 0xFF#8, 0xFF#8, 0x00#8, 0x00#8,
        0x00#8, 0x00#8, 0x00#8, 0x00#8, 0x00#8, 0x00#8, 0x00#8, 0x00#8]) = true := by decide

/-- P6. -/
theorem test_packs_p6 :
    runs .packs (withOverride 1469918176385 overrideP6) (fun t => t.buf == bytesP6) = true := by decide

/-- P10. -/
theorem test_packs_p10 :
    runs .packs (withOverride 0 (['A', 'B', 'C', 'D', 'e', 'F', 'G', 'H', 'J', 'K', 'M', 'N', 'P'] ++
        ['Q', 'R', 'S'])) (fun t =>
      statusWord t.err t.errPos == 0x00000403#32 && t.errChar == 0x65#32) = true := by decide

/-- P9: the bytes that `PACKR` writes for that draw. -/
theorem test_packr_p9 :
    pack16 1469918176385#48 (drawPayload drawP9) =
      #v[0x01#8, 0x56#8, 0x3D#8, 0xF3#8, 0x64#8, 0x81#8, 0x00#8, 0x11#8,
        0x22#8, 0x33#8, 0x44#8, 0x55#8, 0x66#8, 0x77#8, 0x88#8, 0x99#8] := by decide

/-- P12: no draw is taken. -/
theorem test_packr_p12 :
    runs .packr { zeros with time := BitVec.ofInt 64 (-5) } (fun t =>
      statusWord t.err t.errPos == 0x00000004#32 && t.draws == 0) = true := by decide

/-- G1. -/
theorem test_gens_g1 :
    runs .gens (withOverride 1469918176385 overrideP6) (fun t => t.str == text26 textG1) = true := by decide

/-- G5. -/
theorem test_gens_g5 :
    runs .gens (withOverride 0 ['I']) (fun t =>
      statusWord t.err t.errPos == 0x00000003#32 && t.errChar == 0x49#32) = true := by decide

/-- G3: the text that `GENR` writes for that draw. -/
theorem test_genr_g3 :
    enc26 (1469918176385#48 ++ drawPayload drawP9) = text26
      (['0', '1', 'A', 'R', 'Y', 'Z', '6', 'S', '4', '1', '0', '0', '8'] ++
        ['J', '4', 'C', 'T', '4', 'A', 'N', 'K', '7', 'F', '2', '4', 'S']) := by decide

/-- G8. -/
theorem test_genr_g8 :
    runs .genr { zeros with time := 0x0001000000000000#64 } (fun t =>
      statusWord t.err t.errPos == 0x00000004#32 && t.draws == 0) = true := by decide

/-- B5. -/
theorem test_b2s_b5 :
    runs .b2s (withBytes bytesP6) (fun t => t.str == text26 textG1) = true := by decide

/-- B4. -/
theorem test_b2s_b4 :
    runs .b2s { zeros with buflen := 15#32 } (fun t =>
      statusWord t.err t.errPos == 0x00000001#32 && t.str == zeros.str) = true := by decide

/-- S1. -/
theorem test_s2b_s1 :
    runs .s2b (withText textG1) (fun t => t.buf == bytesP6 && t.buflen == 16#32) = true := by decide

/-- S3. -/
theorem test_s2b_s3 :
    runs .s2b (withText (['8'] ++ List.replicate 25 'Z')) (fun t =>
      statusWord t.err t.errPos == 0x00000002#32 && t.errChar == 0x38#32) = true := by decide

/-- T2: the tail is not checked. -/
theorem test_dtime_t2 :
    runs .dtime (withText (['0', '1', 'A', 'R', 'Y', 'Z', '6', 'S', '4', '1'] ++
        List.replicate 16 '!')) (fun t =>
      t.time == 0x000001563DF36481#64 && t.err == 0#4) = true := by decide

/-- T5: characters before range. -/
theorem test_dtime_t5 :
    runs .dtime (withText ['8', '!']) (fun t =>
      statusWord t.err t.errPos == 0x00000102#32 && t.errChar == 0x21#32) = true := by decide

/-- U1. -/
theorem test_unpack_u1 :
    runs .unpack (withBytes bytesP6) (fun t =>
      t.time == 0x000001563DF36481#64 && t.pay == 0x52D8D73E1194E95B5F19#80) = true := by decide

/-- U4. -/
theorem test_unpack_u4 :
    runs .unpack { zeros with buflen := 17#32, pay := 5#80 } (fun t =>
      statusWord t.err t.errPos == 0x00000001#32 && t.pay == 5#80) = true := by decide

/-! The window. -/

/-- M1. -/
theorem test_reserved_read :
    acts (.read .w32 0x03C#12) zeros (fun t => t.reads == [0#32]) = true := by decide

/-- M2. -/
theorem test_status_is_read_only :
    acts (.write .w32 0x004#12 0xFFFFFFFF#32) zeros (fun t => readReg t .status == 0#32) = true := by decide

/-- M3. -/
theorem test_ctrl_reserved_bits :
    acts (.write .w32 0x00C#12 0xFFFFFFFF#32) zeros (fun t => readReg t .ctrl == 1#32) = true := by decide

/-- M4. -/
theorem test_pay0_reserved_bits :
    acts (.write .w32 0x048#12 0xABCD1234#32) zeros (fun t =>
      readReg t (.pay 0) == 0x1234#32) = true := by decide

/-- M7. -/
theorem test_alpha_read :
    acts (.read .w32 0x248#12) zeros (fun t => t.reads == [0x4A#32]) = true := by decide

/-- M8. -/
theorem test_cmd_reads_back :
    acts (.write .w32 0x000#12 1#32) zeros (fun t => readReg t .cmd == 1#32) = true := by decide

/-- M5. -/
theorem test_narrow_read_is_bus_error :
    step { zeros with host := [.read .w8 0x004#12] } = .fault .busError := by rfl

/-- M6. -/
theorem test_misaligned_read_is_bus_error :
    step { zeros with host := [.read .w32 0x002#12] } = .fault .busError := by rfl

/-- M9: the fault is recorded, and is the strict reading's outcome. -/
theorem test_unwritten_read_is_recorded :
    acts (.read .w32 0x010#12) State.reset (fun t => t.faulted) = true ∧
      strictStep { State.reset with host := [.read .w32 0x010#12] } = .fault .unwrittenRead := ⟨by decide, by rfl⟩

/-- T9. -/
theorem test_tail_is_not_read :
    runs .dtime { withText ['0', '1', 'A', 'R', 'Y', 'Z', '6', 'S', '4', '1'] with
        written := { allWritten with str := 0x3FF#26 } } (fun t =>
      t.time == 1469918176385#64 && !t.faulted) = true := by decide

/-- D19. -/
theorem test_dec_reads_unwritten_slot :
    runs .dec { withText [] with written := { allWritten with str := 0x3FFFFFE#26 } } (fun t =>
      t.faulted) = true := by decide

/-- Program 2, its first lines' bus transactions. -/
theorem test_program_bus_encoding :
    assemble [.ldbuf #v[0x10#8, 0x11#8, 0x12#8, 0x13#8, 0x14#8, 0x15#8, 0x16#8, 0x17#8,
        0x18#8, 0x19#8, 0x1A#8, 0x1B#8, 0x1C#8, 0x1D#8, 0x1E#8, 0x1F#8],
        .command .b2s, .rd .status] =
      [.write .w32 0x020#12 0x10111213#32, .write .w32 0x024#12 0x14151617#32,
        .write .w32 0x028#12 0x18191A1B#32, .write .w32 0x02C#12 0x1C1D1E1F#32,
        .write .w32 0x030#12 0x10#32, .write .w32 0x000#12 8#32, .read .w32 0x004#12] := by decide

/-- Program 3, its first line. -/
theorem test_ldstr_bus_encoding :
    assemble [.ldstr ['1', '2', '3', '4', '5']] =
      [.write .w32 0x034#12 5#32, .write .w32 0x100#12 0x31#32, .write .w32 0x104#12 0x32#32,
        .write .w32 0x108#12 0x33#32, .write .w32 0x10C#12 0x34#32, .write .w32 0x110#12 0x35#32] := by decide

/-- Program 4: `SETPOL TRUNCATE`, `LDTIME -1`. -/
theorem test_policy_and_time_bus_encoding :
    assemble [.setpol .truncate, .ldtime (-1)] =
      [.write .w32 0x00C#12 1#32, .write .w32 0x040#12 0xFFFFFFFF#32,
        .write .w32 0x044#12 0xFFFFFFFF#32] := by decide

/-- R64: the placed word is what the next step runs. -/
theorem test_fetch_word_runs :
    ∃ t, step (State.reset.withFetchWord 32 1) = .next t ∧ t.cmd = 1#32 ∧ t.strlen = 26#32 := ⟨_, rfl, rfl, rfl⟩

/-! Witnesses: for each statement with hypotheses, a state and operands that meet them, and one for
each of its clauses at the edge of its range. -/

theorem witness_ResetStep :
    ({ zeros with host := [.reset, .read .w32 0x004#12] } : State).host =
      .reset :: [.read .w32 0x004#12] := rfl

theorem witness_StepKeepsStatusInvariant :
    StatusInv { zeros with host := [.write .w32 0x000#12 2#32] } ∧
      ∃ t, step { zeros with host := [.write .w32 0x000#12 2#32] } = .next t ∧ t.err = 1#4 := ⟨by decide, _, rfl, by decide⟩

/-- A status as the registers hold it. -/
def reported (e : BitVec 4) (pos : BitVec 5) (ch : Word) : State :=
  { zeros with err := e, errPos := pos, errChar := ch }

theorem witness_StatusInv_character :
    StatusInv (reported 2#4 25#5 0x21#32) ∧ StatusInv (reported 2#4 0#5 0x38#32) ∧
      StatusInv (reported 3#4 15#5 0x49#32) ∧ ¬ StatusInv (reported 6#4 0#5 0#32) := ⟨by decide, by decide, by decide, by decide⟩

theorem witness_StepKeepsWrittenAndFault :
    ∃ t, step { zeros with host := [.read .w32 0x010#12], faulted := true } = .next t ∧
      [HostAction.read .w32 0x010#12].head? ≠ some .reset ∧ isWritten zeros (.val 0) = true := ⟨_, rfl, by decide, by decide⟩

theorem witness_DecodeTotal :
    (0x00000101#32).extractLsb' 8 24 ≠ 0#24 ∧ (0x00000001#32).extractLsb' 8 24 = 0#24 ∧
      ((0x0000000B#32).extractLsb' 0 8).toNat ≤ 11 ∧
      ¬ 1 ≤ ((0x00000000#32).extractLsb' 0 8).toNat ∧ ¬ ((0x0000000C#32).extractLsb' 0 8).toNat ≤ 11 := by decide

theorem witness_StepRunsDecodedCommand :
    ({ zeros with host := [.write .w32 0x000#12 0xB#32] } : State).host = .write .w32 0x000#12 0xB#32 :: [] ∧
      decode 0xB#32 = .instr .unpack := by decide

theorem witness_EveryCommandCompletes :
    ({ zeros with host := [.write .w32 0x000#12 0xFFFFFFFF#32] } : State).host =
      .write .w32 0x000#12 0xFFFFFFFF#32 :: [] := by decide

theorem witness_IllegalCommandStep :
    ({ zeros with host := [.write .w32 0x000#12 0x0C#32] } : State).host =
        .write .w32 0x000#12 0x0C#32 :: [] ∧
      (0x00000101#32).extractLsb' 8 24 ≠ 0#24 ∧ (0x00000000#32).extractLsb' 0 8 = 0x00#8 ∧
      0x0C#8 ≤ (0x0000000C#32).extractLsb' 0 8 ∧ ¬ 0x0C#8 ≤ (0x0000000B#32).extractLsb' 0 8 := by decide

theorem witness_DecWritesValue_and_S2bWritesBytes :
    (withText textG1).strlen = 26#32 ∧ validText (withText textG1).str = true ∧
      validText (text26 ['7', 'Z']) = true := by decide

theorem witness_PackWritesBytes_PackrWritesBytes_GenrWritesText :
    acceptsTime { zeros with time := 0#64 } ∧ acceptsTime { zeros with time := 0x0000FFFFFFFFFFFF#64 } ∧
      acceptsTime { zeros with tspol := 1#1, time := BitVec.ofInt 64 (-1) } := by decide

theorem witness_PacksWritesBytes_GensWritesText :
    acceptsTime (withOverride 0 overrideP6) ∧ (withOverride 0 overrideP6).pstrlen = 16#32 ∧
      ∀ j : Fin 16, (idx (withOverride 0 overrideP6).pstr[j.val]).isSome := by decide

theorem witness_B2sWritesText_UnpackWritesFields :
    (withBytes bytesP6).buflen = 16#32 := by decide

theorem witness_DtimeWritesTime :
    ∀ i : Fin 26, i.val < 10 → textSlotOk (withText (['7'] ++ List.replicate 9 'Z' ++ ['!'])).str i = true := by decide

theorem witness_TimestampRejected :
    zeros.tspol = 0#1 ∧ (BitVec.ofInt 64 (-1)).toInt < 0 ∧ 2 ^ 48 - 1 < (0x0001000000000000#64).toInt := by decide

theorem witness_PayloadRejected_length :
    acceptsTime { zeros with pstrlen := 15#32 } ∧ ({ zeros with pstrlen := 15#32 } : State).pstrlen ≠ 16#32 := by decide

theorem witness_PayloadRejected_character :
    acceptsTime (withOverride 0 (List.replicate 15 '0' ++ ['!'])) ∧
      idx (withOverride 0 (List.replicate 15 '0' ++ ['!'])).pstr[15] = none ∧
      ∀ k : Fin 16, k.val < 15 → (idx (withOverride 0 (List.replicate 15 '0' ++ ['!'])).pstr[k.val]).isSome := by decide

theorem witness_TextRejected_length :
    ({ zeros with strlen := 25#32 } : State).strlen ≠ 26#32 := by decide

theorem witness_TextRejected_first :
    (withText ['8']).strlen = 26#32 ∧ textSlotOk (withText ['8']).str 0 = false := by decide

theorem witness_TextRejected_last :
    textSlotOk (withText (List.replicate 25 '0' ++ ['!'])).str 25 = false ∧
      ∀ k : Fin 26, k.val < 25 → textSlotOk (withText (List.replicate 25 '0' ++ ['!'])).str k = true := by decide

theorem witness_TextTimeRejected_character :
    idx (withText (List.replicate 9 '0' ++ ['!'])).str[9] = none ∧
      ∀ k : Fin 26, k.val < 9 → (idx (withText (List.replicate 9 '0' ++ ['!'])).str[k.val]).isSome := by decide

theorem witness_TextTimeRejected_range :
    (∀ i : Fin 26, i.val < 10 → (idx (withText ['8']).str[i.val]).isSome) ∧
      textSlotOk (withText ['8']).str 0 = false := by decide

theorem witness_BinaryLengthRejected :
    ({ zeros with buflen := 15#32 } : State).buflen ≠ 16#32 := by decide

theorem witness_ErrorsArePrecise_and_ErrorsAreNotTransient :
    ∃ t, exec .b2s { zeros with buflen := 15#32 } = .next t ∧ t.err ≠ 0#4 := ⟨_, rfl, by decide⟩

theorem witness_TextCommandsFrame :
    Instr.enc ∈ [Instr.enc, .gens, .genr, .b2s] ∧ (∃ t, exec .enc zeros = .next t) ∧
      textReg (.val 0) = false ∧ statusReg (.val 0) = false := ⟨by decide, ⟨_, rfl⟩, rfl, rfl⟩

theorem witness_BufferCommandsFrame :
    Instr.s2b ∈ [Instr.pack, .packs, .packr, .s2b] ∧ (∃ t, exec .s2b (withText textG1) = .next t) ∧
      bufReg (.val 0) = false ∧ statusReg (.val 0) = false := ⟨by decide, ⟨_, rfl⟩, rfl, rfl⟩

theorem witness_FieldCommandsFrame :
    (∃ t, exec .dec (withText textG1) = .next t) ∧ valReg (.str 0) = false ∧
      timeReg (.pay 0) = false ∧ (timeReg (.buf 0) || payReg (.buf 0)) = false := ⟨⟨_, rfl⟩, rfl, rfl, rfl⟩

theorem witness_DrawsOnlyOnRandomSuccess :
    ∃ t, exec .packr zeros = .next t ∧ t.err = 0#4 := ⟨_, rfl, by decide⟩

theorem witness_OutcomeDependsOnOperandsOnly :
    (∀ w, readReg zeros (.val w) = readReg { zeros with time := 7#64 } (.val w)) ∧
      (∃ t, exec .enc zeros = .next t ∧ t.err = 0#4) ∧
      ∃ t, exec .enc { zeros with time := 7#64 } = .next t := ⟨fun _ => rfl, ⟨_, rfl, by decide⟩, _, rfl⟩

theorem witness_OutcomeDependsOnOperandsOnly_draw :
    Config.entropyDraw zeros.draws = Config.entropyDraw (withText ['8']).draws ∧
      (∀ r, operandReg .packr r = true → readReg zeros r = readReg (withText ['8']) r) ∧
      (∃ t, exec .packr zeros = .next t ∧ t.err = 0#4) ∧ ∃ t, exec .packr (withText ['8']) = .next t := ⟨rfl, fun r h => (by cases r <;> first | rfl | cases h), ⟨_, rfl, by decide⟩, _, rfl⟩

theorem witness_RepeatsChangeNothing :
    Instr.pack ≠ .packr ∧ Instr.pack ≠ .genr ∧ ∃ t, exec .pack zeros = .next t := ⟨by decide, by decide, _, rfl⟩

theorem witness_SuccessReadsWrittenOperands :
    ∃ t, exec .dec (withText textG1) = .next t ∧ t.err = 0#4 ∧ t.faulted = false := ⟨_, rfl, by decide, by decide⟩

theorem witness_TextReadsStopAtFirstBadSlot :
    (withText ['8']).faulted = false ∧ isWritten (withText ['8']) .strlen = true ∧
      isWritten (withText ['8']) (.str 9) = true ∧
      (∃ t, exec .dec { zeros with strlen := 5#32 } = .next t) ∧
      (∃ t, exec .dec (withText ['8']) = .next t) ∧ ∃ t, exec .dtime (withText ['8']) = .next t := ⟨rfl, by decide, by decide, ⟨_, rfl⟩, ⟨_, rfl⟩, _, rfl⟩

/-- Nine good characters and a bad slot 9, and no slot after it written: `DTIME` stops at 9. -/
def stopsAtNine : State :=
  { withText (List.replicate 9 '0' ++ ['!']) with written := { allWritten with str := 0x3FF#26 } }

theorem witness_TextReadsStopAtFirstBadSlot_dtime :
    stopsAtNine.faulted = false ∧ isWritten stopsAtNine .strlen = true ∧
      stopsAtNine.strlen = 26#32 ∧ idx stopsAtNine.str[9] = none ∧
      (∀ k : Fin 26, k.val < 9 → (idx stopsAtNine.str[k.val]).isSome) ∧
      ∃ t, exec .dtime stopsAtNine = .next t := ⟨rfl, by decide, rfl, by decide, by decide, _, rfl⟩

theorem witness_TextReadsStopAtFirstBadSlot_ten :
    (withText ['8']).strlen = 26#32 ∧ isWritten (withText ['8']) .strlen = true ∧
      ∀ i : Fin 26, i.val < 10 → (idx (withText ['8']).str[i.val]).isSome := by decide

theorem witness_StrictHostRead :
    State.reset.faulted = false ∧ isWritten State.reset (.val 0) = false ∧
      isWritten State.reset .status = true ∧
      ({ State.reset with host := [.read .w32 (offsetOf (.val 0))] } : State).host =
        .read .w32 (offsetOf (.val 0)) :: [] := by decide

theorem witness_StrictEncFaults :
    ({ State.reset with host := [.write .w32 0x000#12 1#32] } : State).host =
        .write .w32 0x000#12 1#32 :: [] ∧ isWritten State.reset (.val 3) = false := by decide

theorem witness_ValidTextsAreEncodings :
    validText (text26 ['7']) = true ∧ validText (text26 ['8']) = false := by decide

theorem witness_CodecRoundTrip :
    (∃ t, exec .enc { zeros with val := 5#128 } = .next t ∧ ∃ u, exec .dec t = .next u) ∧
      ∃ t, exec .dec (withText textG1) = .next t ∧ ∃ u, exec .enc t = .next u := ⟨⟨_, rfl, _, rfl⟩, _, rfl, _, rfl⟩

theorem witness_BinaryTextRoundTrip :
    (∃ t, exec .b2s (withBytes bytesP6) = .next t ∧ ∃ u, exec .s2b t = .next u) ∧
      ∃ t, exec .s2b (withText textG1) = .next t ∧ ∃ u, exec .b2s t = .next u := ⟨⟨_, rfl, _, rfl⟩, _, rfl, _, rfl⟩

theorem witness_TimestampExtraction :
    ∃ t, exec .gens (withOverride 1469918176385 overrideP6) = .next t ∧ t.err = 0#4 ∧
      (withOverride 1469918176385 overrideP6).tspol = 0#1 ∧ ∃ u, exec .dtime t = .next u := ⟨_, rfl, by decide, rfl, _, rfl⟩

theorem witness_PackUnpackRoundTrip :
    (∃ t, exec .pack { zeros with time := 5#64 } = .next t ∧ t.err = 0#4 ∧
        ∃ u, exec .unpack t = .next u) ∧
      ∃ t, exec .unpack (withBytes bytesP6) = .next t ∧
        ∃ u, exec .pack { t with tspol := 0#1 } = .next u := ⟨⟨_, rfl, by decide, _, rfl⟩, _, rfl, _, rfl⟩

theorem witness_TimestampOrder :
    (lowStamp (withOverride 5 overrideP6)).toNat < (lowStamp (withOverride 6 [])).toNat ∧
      (∃ t, exec .gens (withOverride 5 overrideP6) = .next t ∧ t.err = 0#4) ∧
      (∃ t, exec .genr (withOverride 6 []) = .next t ∧ t.err = 0#4) ∧
      (∃ t, exec .packs (withOverride 5 overrideP6) = .next t ∧ t.err = 0#4) ∧
      ∃ t, exec .packr (withOverride 6 []) = .next t ∧ t.err = 0#4 := ⟨by decide, ⟨_, rfl, by decide⟩, ⟨_, rfl, by decide⟩, ⟨_, rfl, by decide⟩, _, rfl, by decide⟩

theorem witness_GensKeepsOverrideCharacters :
    ∃ t, exec .gens (withOverride 5 overrideP6) = .next t ∧ t.err = 0#4 := ⟨_, rfl, by decide⟩

theorem witness_RegisterMap :
    (0x27C#12).toNat % 4 = 0 ∧ regAt 0x27C#12 = some (.alpha 31) ∧ regAt 0x280#12 = none := by decide

theorem witness_BusErrors :
    ({ zeros with host := [.write .w16 0x000#12 0#32] } : State).host = .write .w16 0x000#12 0#32 :: [] ∧
      (HostAction.write .w16 0x000#12 0#32).wellFormed = false ∧
      (HostAction.write .w32 0xFFF#12 0#32).wellFormed = false ∧
      (HostAction.write .w32 0xFFC#12 0#32).wellFormed = true ∧ HostAction.reset.wellFormed = true := by decide

theorem witness_ReservedOffsets :
    (0x03C#12).toNat % 4 = 0 ∧ regAt 0x03C#12 = none ∧ (0xFFC#12).toNat % 4 = 0 ∧
      regAt 0xFFC#12 = none ∧ regAt 0x054#12 = none ∧ regAt 0x168#12 = none ∧ regAt 0x1C0#12 = none := by decide

theorem witness_ReadOnlyWrites :
    ({ zeros with host := [.write .w32 (offsetOf (.alpha 31)) 7#32] } : State).host =
      .write .w32 (offsetOf (.alpha 31)) 7#32 :: [] := by decide

theorem witness_WrittenWordReadsBack :
    Reg.pay 0 ≠ .status ∧ Reg.pay 0 ≠ .errchar ∧ ∀ k, Reg.pay 0 ≠ .alpha k := ⟨by decide, by decide, fun _ h => by cases h⟩

theorem witness_WriteLeavesOtherWords :
    Reg.timel ≠ .timeh ∧ Reg.str 24 ≠ .str 25 ∧ Reg.val 2 ≠ .val 3 := by decide

theorem witness_ReadsHaveNoSideEffect :
    ({ zeros with host := [.read .w32 (offsetOf .timel)] } : State).host =
      .read .w32 (offsetOf .timel) :: [] := by decide

theorem witness_WritesOnlyStore :
    Reg.pstr 15 ≠ .cmd ∧
      ({ zeros with host := [.write .w32 (offsetOf (.pstr 15)) 7#32] } : State).host =
        .write .w32 (offsetOf (.pstr 15)) 7#32 :: [] := by decide

end Sys2Proof.Tests
end

section
/-! The registers as reset leaves them (spec/10_state.md R36, R37). -/

namespace Sys2Proof.Machine

/-- The written bit of every word while no written bit is set: the control registers and `ALPHA`
have a value, the operand words have none. -/
theorem isWritten_of_written_none {s : State} (h : s.written = Written.none) (r : Reg) :
    isWritten s r =
      !(valReg r || bufReg r || textReg r || payStrReg r || timeReg r || payReg r) := by
  cases r with
  | cmd | status | errchar | ctrl | alpha => rfl
  | val | buf | pay | str | pstr | buflen | strlen | pstrlen | timeh | timel =>
    simp [isWritten, h, Written.none, valReg, bufReg, textReg, payStrReg, timeReg, payReg]

@[simp] theorem statusWord_zero : statusWord 0#4 0#5 = 0#32 := by decide

@[simp] theorem ctrlWord_zero : ctrlWord 0#1 = 0#32 := by decide

/-- Settles O1: the control registers' fields are 0 in the reset state, `ALPHA` has no storage, and
no written bit is set. -/
theorem resetRegisters : Obligations.ResetRegisters := by
  unfold Obligations.ResetRegisters
  refine ⟨rfl, statusWord_zero, rfl, ctrlWord_zero, fun _ => rfl, fun r hr => ?_⟩
  rw [isWritten_of_written_none rfl, hr, Bool.not_true]

end Sys2Proof.Machine
end

section
/-! One access of the window as a step (spec/20_memory.md R52 to R57). -/

namespace Sys2Proof.Machine

/-! Every command, and so every legal write, answers a next state. -/

theorem exec_answers (i : Instr) (s : State) : ∃ t, exec i s = .next t := by
  cases i <;> exact ⟨_, rfl⟩

theorem runCommand_answers (w : Word) (s : State) : ∃ t, runCommand w s = .next t := by
  unfold runCommand
  cases decode w with
  | instr i => exact exec_answers i _
  | illegal reason => exact ⟨_, rfl⟩

theorem performWrite_answers (off : Offset) (v : Word) (s : State) :
    ∃ t, performWrite off v s = .next t := by
  unfold performWrite
  split
  · exact runCommand_answers v s
  · exact ⟨_, rfl⟩

/-! An action faults exactly when it is not well formed. -/

@[simp] theorem wellFormed_read (width : Width) (off : Offset) :
    (HostAction.read width off).wellFormed = accessLegal width off := by
  rw [Bool.eq_iff_iff]
  simp [HostAction.wellFormed, accessLegal_iff, aligned_iff]

@[simp] theorem wellFormed_write (width : Width) (off : Offset) (v : Word) :
    (HostAction.write width off v).wellFormed = accessLegal width off := by
  rw [Bool.eq_iff_iff]
  simp [HostAction.wellFormed, accessLegal_iff, aligned_iff]

theorem perform_eq_busError_iff (a : HostAction) (s : State) :
    perform a s = .fault .busError ↔ a.wellFormed = false := by
  cases a with
  | reset => simp [perform, HostAction.wellFormed]
  | read width off => cases hl : accessLegal width off <;> simp [perform, hl]
  | write width off v =>
    obtain ⟨t, ht⟩ := performWrite_answers off v s
    cases hl : accessLegal width off <;> simp [perform, hl, ht]

/-! The step that takes a given action. -/

section
variable {s : State} {rest : List HostAction} {off : Offset} {v : Word}

theorem step_of_host {a : HostAction} (h : s.host = a :: rest) :
    step s = perform a (withHost rest s) := by
  simp [step, stepHost, h]

theorem step_read (ha : off.toNat % 4 = 0) (h : s.host = .read .w32 off :: rest) :
    step s = .next (hostRead off (withHost rest s)) := by
  rw [step_of_host h, perform, if_pos ((accessLegal_iff _ _).mpr ⟨rfl, ha⟩)]

/-- A write of any word but `CMD` only stores (R58). -/
theorem step_write (ha : off.toNat % 4 = 0) (hc : off ≠ offsetOf .cmd)
    (h : s.host = .write .w32 off v :: rest) :
    step s = .next (hostWrite off v (withHost rest s)) := by
  rw [step_of_host h, perform, if_pos ((accessLegal_iff _ _).mpr ⟨rfl, ha⟩), performWrite, if_neg hc]

theorem hostRead_reserved (h : regAt off = none) :
    hostRead off s = { s with reads := s.reads ++ [0#32] } := by
  simp [hostRead, h]

theorem hostWrite_reserved (h : regAt off = none) : hostWrite off v s = s := by
  simp [hostWrite, h]

@[simp] theorem hostWrite_offsetOf (r : Reg) : hostWrite (offsetOf r) v s = writeReg r v s := by
  simp [hostWrite]

theorem ne_offsetOf_of_reserved (h : regAt off = none) (r : Reg) : off ≠ offsetOf r := by
  rintro rfl
  simp at h

theorem writeReg_readOnly {r : Reg} (hr : r = .status ∨ r = .errchar ∨ ∃ k, r = .alpha k) :
    writeReg r v s = s := by
  obtain rfl | rfl | ⟨k, rfl⟩ := hr <;> rfl

theorem step_write_reg {r : Reg} (hr : r ≠ .cmd) (h : s.host = .write .w32 (offsetOf r) v :: rest) :
    step s = .next (writeReg r v (withHost rest s)) := by
  rw [step_write (offsetOf_aligned r) (mt offsetOf_eq_cmd.mp hr) h, hostWrite_offsetOf]

end

/-- Settles O52: of the actions, `perform` faults those that are not well formed, and the first
action of the host's list is the one performed. -/
theorem busErrors : Obligations.BusErrors := by
  unfold Obligations.BusErrors
  intro s rest a h
  rw [step_of_host h, perform_eq_busError_iff]

/-- Settles O53: no register answers at a reserved offset, so a read gives 0 and a write is neither
stored nor a command. -/
theorem reservedOffsets : Obligations.ReservedOffsets := by
  unfold Obligations.ReservedOffsets
  intro s rest off ha hn
  refine ⟨fun h => ?_, fun v h => ?_⟩
  · rw [step_read ha h, hostRead_reserved hn]
    rfl
  · rw [step_write ha (ne_offsetOf_of_reserved hn _) h, hostWrite_reserved hn]
    rfl

/-- Settles O54: storing a word in a read-only register is no change, and none of them is `CMD`. -/
theorem readOnlyWrites : Obligations.ReadOnlyWrites := by
  unfold Obligations.ReadOnlyWrites
  intro s rest r v hr h
  have hc : r ≠ .cmd := by
    rintro rfl
    simp at hr
  rw [step_write_reg hc h, writeReg_readOnly hr]
  rfl

end Sys2Proof.Machine
end

section
/-! A written word read back (spec/20_memory.md R57). -/

namespace Sys2Proof.Machine

/-- The low `b` bits of a vector, zero-extended, are a mask of it. -/
theorem zero_append_extractLsb' {a b : Nat} (v : BitVec (a + b)) :
    0#a ++ v.extractLsb' 0 b = v &&& BitVec.ofNat (a + b) (2 ^ b - 1) := by
  apply BitVec.eq_of_getLsbD_eq
  intro i hi
  have mask : (BitVec.ofNat (a + b) (2 ^ b - 1)).getLsbD i = decide (i < b) := by
    simp only [BitVec.getLsbD_ofNat, hi, Nat.testBit_two_pow_sub_one, decide_true, Bool.true_and]
  rw [BitVec.getLsbD_append, BitVec.getLsbD_and, mask]
  by_cases h : i < b <;> simp [h]

/-- A field that reaches past the end of a vector is filled with zeros. -/
theorem extractLsb'_past_end {lo a b : Nat} (x : BitVec (lo + b)) :
    x.extractLsb' lo (a + b) = 0#a ++ x.extractLsb' lo b := by
  apply BitVec.eq_of_getLsbD_eq
  intro i hi
  rw [BitVec.getLsbD_append, BitVec.getLsbD_extractLsb', BitVec.getLsbD_extractLsb']
  by_cases h : i < b
  · simp [h, hi]
  · have past : x.getLsbD (lo + i) = false := BitVec.getLsbD_of_ge _ _ (by omega)
    simp [h, past]

/-- The low bits of a replaced field read back as far as the vector reaches. -/
theorem extractLsb'_splice_low {n m : Nat} (v : BitVec n) (lo : Nat) (x : BitVec m) {k : Nat}
    (hk : k ≤ m) (hn : lo + k ≤ n) : (splice v lo x).extractLsb' lo k = x.extractLsb' 0 k := by
  apply BitVec.eq_of_getLsbD_eq
  intro i hi
  have h : lo + i < n ∧ lo ≤ lo + i ∧ lo + i < lo + m := by omega
  rw [BitVec.getLsbD_extractLsb', splice_getLsbD, if_pos h, Nat.add_sub_cancel_left]
  simp

section
variable (s : State) (v : Word)

/-- `PAY0` has 16 bits of `PAY` below its reserved bits (R27). -/
theorem readReg_pay0 : readReg s (.pay 0) = 0#16 ++ s.pay.extractLsb' 64 16 :=
  extractLsb'_past_end (lo := 64) (a := 16) (b := 16) s.pay

theorem readReg_writeReg_ctrl : readReg (writeReg .ctrl v s) .ctrl = v &&& 1#32 :=
  zero_append_extractLsb' (a := 31) (b := 1) v

theorem writeReg_pay0_pay : (writeReg (.pay 0) v s).pay.extractLsb' 64 16 = v.extractLsb' 0 16 :=
  extractLsb'_splice_low s.pay 64 v (by decide) (by decide)

theorem readReg_writeReg_pay0 : readReg (writeReg (.pay 0) v s) (.pay 0) = v &&& 0xFFFF#32 := by
  rw [readReg_pay0, writeReg_pay0_pay]
  exact zero_append_extractLsb' (a := 16) (b := 16) v

/-- A read-write register without reserved bits reads a written word back whole. -/
theorem readReg_writeReg_whole {r : Reg} (hs : r ≠ .status) (he : r ≠ .errchar)
    (ha : ∀ k, r ≠ .alpha k) (hc : r ≠ .ctrl) (hp : r ≠ .pay 0) :
    readReg (writeReg r v s) r = v := by
  cases r with
  | status | errchar | ctrl => contradiction
  | alpha k => exact absurd rfl (ha k)
  | cmd | buflen | strlen | pstrlen => rfl
  | val w => exact extractLsb'_splice_self _ _ _ (by omega)
  | timeh | timel => exact extractLsb'_splice_self _ _ _ (by decide)
  | pay w =>
    have hw : w.val ≠ 0 := fun e => hp (congrArg Reg.pay (Fin.ext e))
    exact extractLsb'_splice_self _ _ _ (by omega)
  | buf w => exact (bufWord_setBufWord s.buf w w v).trans (if_pos rfl)
  | str i | pstr i => exact Vector.getElem_set_self _

end

/-- Settles O55: a field replaced by a word reads back as that word, cut to the bits that `CTRL` and
`PAY0` store. -/
theorem writtenWordReadsBack : Obligations.WrittenWordReadsBack := by
  unfold Obligations.WrittenWordReadsBack
  intro s v
  refine ⟨fun r hs he ha => ⟨?_, ?_⟩, ?_, ?_, rfl, writeReg_pay0_pay s v⟩
  · split
    next hc => rw [hc, readReg_writeReg_ctrl]
    next hc =>
      split
      next hp => rw [hp, readReg_writeReg_pay0]
      next hp => exact readReg_writeReg_whole s v hs he ha hc hp
  · simp [isWritten_writeReg, hs, he, ha]
  · exact extractLsb'_append_upper 0#31 s.tspol 1 31 (by decide)
  · rw [readReg_pay0, extractLsb'_append_upper _ _ _ _ (by decide)]
    rfl

end Sys2Proof.Machine
end

section
/-! The command word (spec/30_encoding.md R80 to R83): which words are commands, and the step that
writes one that is not. -/

namespace Sys2Proof.Machine

/-! The reserved field and the operation number alone say whether a word is a command. -/

theorem opcode_range (i : Instr) : 1 ≤ (opcode i).toNat ∧ (opcode i).toNat ≤ 11 := by
  cases i <;> decide

theorem commandWordWellFormed_iff (w : Word) :
    commandWordWellFormed w = true ↔
      rsvdField w = 0#24 ∧ 1 ≤ (opField w).toNat ∧ (opField w).toNat ≤ 11 := by
  simp [commandWordWellFormed, rsvdField, opField, and_assoc]

/-- A word that passes the check is the command that its operation number names. -/
theorem decode_of_wellFormed {w : Word} (h : commandWordWellFormed w = true) :
    ∃ i, decode w = .instr i ∧ opcode i = opField w := by
  obtain ⟨hrsvd, hlow, hhigh⟩ := (commandWordWellFormed_iff w).mp h
  obtain ⟨i, hd, -, hop⟩ | ⟨-, hr⟩ | ⟨-, -, hout⟩ := decode_cases w
  · exact ⟨i, hd, hop.symm⟩
  · contradiction
  · omega

/-- A word that fails the check is no command. -/
theorem decode_of_not_wellFormed {w : Word} (h : ¬commandWordWellFormed w = true) :
    ∃ r, decode w = .illegal r := by
  obtain ⟨i, -, hrsvd, hop⟩ | ⟨hd, -⟩ | ⟨hd, -⟩ := decode_cases w
  · exact absurd ((commandWordWellFormed_iff w).mpr ⟨hrsvd, hop ▸ opcode_range i⟩) h
  · exact ⟨_, hd⟩
  · exact ⟨_, hd⟩

/-- Settles O8: the check of a command word holds in the second of the three cases and fails in
the other two. -/
theorem decodeTotal : Obligations.DecodeTotal := by
  unfold Obligations.DecodeTotal
  intro w
  refine ⟨fun hrsvd => ?_, fun hrsvd => ⟨fun hop => ?_, fun hop => ?_⟩⟩
  · exact decode_of_not_wellFormed fun h => hrsvd ((commandWordWellFormed_iff w).mp h).1
  · exact decode_of_wellFormed ((commandWordWellFormed_iff w).mpr ⟨hrsvd, hop⟩)
  · exact decode_of_not_wellFormed fun h => hop ((commandWordWellFormed_iff w).mp h).2

section
variable {s : State} {rest : List HostAction} {w : Word}

/-- A write of `CMD` runs its word (R64). -/
theorem step_write_cmd (h : s.host = .write .w32 (offsetOf .cmd) w :: rest) :
    step s = runCommand w (withHost rest s) := by
  rw [step_of_host h, perform, if_pos (accessLegal_offsetOf _), performWrite, if_pos rfl]

theorem runCommand_illegal {r : IllegalWord} (h : decode w = .illegal r) :
    runCommand w s = .next (raise .illegalCommand 0#5 0#32 (writeReg .cmd w s)) := by
  simp [runCommand, h]

/-- `OP` 0x00 and 0x0C to 0xFF are the operation numbers of no command (R83). -/
theorem not_wellFormed_of_illegal_fields
    (h : rsvdField w ≠ 0#24 ∨ opField w = 0x00#8 ∨ 0x0C#8 ≤ opField w) :
    ¬commandWordWellFormed w = true := by
  rw [commandWordWellFormed_iff]
  rintro ⟨hrsvd, hlow, hhigh⟩
  obtain hr | hzero | hge := h
  · exact hr hrsvd
  · simp [hzero] at hlow
  · have : 12 ≤ (opField w).toNat := hge
    omega

end

/-- Settles O11: the word decodes to no command, so the step stores it and raises the error. -/
theorem illegalCommandStep : Obligations.IllegalCommandStep := by
  unfold Obligations.IllegalCommandStep
  intro s rest w hhost hw
  obtain ⟨r, hd⟩ := decode_of_not_wellFormed (not_wellFormed_of_illegal_fields hw)
  exact ⟨_, (step_write_cmd hhost).trans (runCommand_illegal hd), reports_raise _ _ _ _, rfl⟩

end Sys2Proof.Machine
end

section
/-! The alphabet as the host reads it (spec/30_encoding.md R86). -/

namespace Sys2Proof.Machine

/-- The codes of the 32 digits in order are the alphabet's codes (R86). -/
theorem map_code_digits :
    (List.finRange 32).map (fun k => code (BitVec.ofNat 5 k.val)) = alphabetCodes := by decide

/-- Settles O4: `ALPHA[k]` reads as the code of digit `k` in every state. -/
theorem alphabetTable : Obligations.AlphabetTable := by
  unfold Obligations.AlphabetTable
  exact fun _ => map_code_digits

end Sys2Proof.Machine
end

section
/-! A failing command, and the completion of every command (spec/60_exceptions.md R210, R215). -/

namespace Sys2Proof.Machine

section
variable {i : Instr} {s t : State}

/-- A command that leaves an error has failed: every completion clears the status. -/
theorem failed_of_err_ne_zero (h : exec i s = .next t) (he : t.err ≠ 0#4) : failed s t := by
  obtain hf | ⟨_, _, -, rfl⟩ | ⟨_, _, -, rfl⟩ | ⟨_, _, -, rfl⟩ | ⟨_, _, -, rfl⟩ | ⟨_, _, -, rfl⟩ |
    ⟨_, _, -, rfl⟩ | ⟨_, _, _, -, rfl⟩ := exec_cases h
  · exact hf
  all_goals exact absurd (complete_err _) he

/-- No command takes an action off the host's list or changes `CMD`. -/
theorem exec_keeps_host_cmd (h : exec i s = .next t) : t.host = s.host ∧ t.cmd = s.cmd := by
  obtain ⟨_, _, _, _, -, rfl⟩ | ⟨_, _, -, rfl⟩ | ⟨_, _, -, rfl⟩ | ⟨_, _, -, rfl⟩ | ⟨_, _, -, rfl⟩ |
    ⟨_, _, -, rfl⟩ | ⟨_, _, -, rfl⟩ | ⟨_, _, _, -, rfl⟩ := exec_cases h
  all_goals exact ⟨rfl, rfl⟩

end

/-- Every command word, legal or not, completes and stays in `CMD` (R64, R83). -/
theorem runCommand_completes (w : Word) (s : State) :
    ∃ t, runCommand w s = .next t ∧ t.host = s.host ∧ t.cmd = w := by
  unfold runCommand
  cases decode w with
  | instr i =>
    obtain ⟨t, ht⟩ := exec_answers i (writeReg .cmd w s)
    exact ⟨t, ht, exec_keeps_host_cmd ht⟩
  | illegal reason => exact ⟨_, rfl, rfl, rfl⟩


/-- Settles O29: an outcome with an error is a failure, and a failure changes the status alone. -/
theorem errorsArePrecise : Obligations.ErrorsArePrecise := by
  unfold Obligations.ErrorsArePrecise
  intro i s t h he
  exact failed_sameButStatus (failed_of_err_ne_zero h he)

/-- Settles O12: every command answers a next state, and the step of a write of `CMD` is the run of
its word. -/
theorem everyCommandCompletes : Obligations.EveryCommandCompletes := by
  unfold Obligations.EveryCommandCompletes
  refine ⟨exec_answers, fun s rest w hhost => ?_⟩
  rw [step_write_cmd hhost]
  exact runCommand_completes w (withHost rest s)

end Sys2Proof.Machine
end

section
/-! Reset taken as a step (spec/70_reset_and_hazards.md R230). -/

namespace Sys2Proof.Machine

section
variable (s : State) (r : Reg)

/-- No register keeps anything over a reset. -/
@[simp] theorem readReg_applyReset : readReg (applyReset s) r = readReg State.reset r := by
  cases r <;> rfl

@[simp] theorem isWritten_applyReset : isWritten (applyReset s) r = isWritten State.reset r := by
  cases r <;> rfl

end

theorem step_reset {s : State} {rest : List HostAction} (h : s.host = .reset :: rest) :
    step s = .next (applyReset (withHost rest s)) :=
  step_of_host h

/-- Settles O3: after the step every register reads, and is written, as in the reset state, whose
registers O1 gives; the host's list is the one that the step leaves. -/
theorem resetStep : Obligations.ResetStep := by
  unfold Obligations.ResetStep
  intro s rest hhost
  obtain ⟨hcmd, hstatus, herrchar, hctrl, halpha, hunwritten⟩ := resetRegisters
  refine ⟨_, step_reset hhost, ?_⟩
  simp only [readReg_applyReset, isWritten_applyReset]
  exact ⟨hcmd, hstatus, herrchar, hctrl, halpha, hunwritten, rfl⟩

end Sys2Proof.Machine
end

section
/-! The invariant of `STATUS` and `ERRCHAR` (spec/10_state.md R28, R29). -/

namespace Sys2Proof.Machine

section
variable {s t : State}

/-- The invariant speaks of the three status fields alone. -/
theorem statusInv_of_sameStatus (he : t.err = s.err) (hp : t.errPos = s.errPos)
    (hc : t.errChar = s.errChar) (h : StatusInv s) : StatusInv t := by
  simpa only [StatusInv, he, hp, hc] using h

theorem sameStatus_of_sameBlock (h : sameBlock s t) :
    t.err = s.err ∧ t.errPos = s.errPos ∧ t.errChar = s.errChar :=
  ⟨(congrArg State.err h :), (congrArg State.errPos h :), (congrArg State.errChar h :)⟩

/-- A status of 0 meets the invariant. -/
theorem statusInv_of_clear (he : s.err = 0#4) (hp : s.errPos = 0#5) (hc : s.errChar = 0#32) :
    StatusInv s := by
  simp [StatusInv, he, hp, hc]

/-- An error that its fields can report meets the invariant. -/
theorem statusInv_raise {e : ErrorCode} {pos : BitVec 5} {ch : Word} (h : reportable e pos ch) :
    StatusInv (raise e pos ch s) := by
  cases e with
  | invalidCharacter | invalidPayloadEncoding =>
    obtain ⟨hpos, hch⟩ := h
    simp only [StatusInv, raise_err, raise_errPos, raise_errChar, errorNumber]
    simpa [hpos] using hch
  | invalidLength | timestampOutOfRange | illegalCommand =>
    obtain ⟨rfl, rfl⟩ := h
    simp [StatusInv, errorNumber]

/-- Every command leaves a status that meets the invariant, whatever stood there before. -/
theorem statusInv_of_exec {i : Instr} (h : exec i s = .next t) : StatusInv t := by
  obtain ⟨e, pos, ch, rs, hr, rfl⟩ | ⟨_, _, -, rfl⟩ | ⟨_, _, -, rfl⟩ | ⟨_, _, -, rfl⟩ |
    ⟨_, _, -, rfl⟩ | ⟨_, _, -, rfl⟩ | ⟨_, _, -, rfl⟩ | ⟨_, _, _, -, rfl⟩ := exec_cases h
  · exact statusInv_raise hr
  all_goals exact statusInv_of_clear rfl rfl rfl

end

section
variable (off : Offset) (v : Word) (s : State)

/-- A host read changes only the list of the values read and the record of a fault. -/
theorem hostRead_sameBlock : sameBlock s (hostRead off s) := by
  unfold hostRead
  split <;> rfl

/-- A host write stores in one register, or nothing. -/
theorem hostWrite_cases : (∃ r, hostWrite off v s = writeReg r v s) ∨ hostWrite off v s = s := by
  unfold hostWrite
  split
  next r _ => exact .inl ⟨r, rfl⟩
  next => exact .inr rfl

theorem hostWrite_status :
    (hostWrite off v s).err = s.err ∧ (hostWrite off v s).errPos = s.errPos ∧
      (hostWrite off v s).errChar = s.errChar := by
  obtain ⟨r, h⟩ | h := hostWrite_cases off v s <;> simp [h]

end

/-- Settles O2: the status is 0 after reset. -/
theorem resetMeetsStatusInvariant : Obligations.ResetMeetsStatusInvariant := by
  unfold Obligations.ResetMeetsStatusInvariant
  exact statusInv_of_clear rfl rfl rfl

/-- Settles O5: a step without a command keeps the status or clears it, and a command or an illegal
word leaves one that meets the invariant. -/
theorem stepKeepsStatusInvariant : Obligations.StepKeepsStatusInvariant := by
  unfold Obligations.StepKeepsStatusInvariant
  intro s t hs h
  obtain ⟨-, rfl⟩ | ⟨_, -, rfl⟩ | ⟨rest, off, -, -, rfl⟩ | ⟨rest, off, v, -, -, -, rfl⟩ |
    ⟨_, _, _, -, -, hexec⟩ | ⟨_, _, _, -, -, rfl⟩ := step_cases h
  · exact hs
  · exact statusInv_of_clear rfl rfl rfl
  · obtain ⟨he, hp, hc⟩ := sameStatus_of_sameBlock (hostRead_sameBlock off (withHost rest s))
    exact statusInv_of_sameStatus he hp hc hs
  · obtain ⟨he, hp, hc⟩ := hostWrite_status off v (withHost rest s)
    exact statusInv_of_sameStatus he hp hc hs
  · exact statusInv_of_exec hexec
  · exact statusInv_raise ⟨rfl, rfl⟩

end Sys2Proof.Machine
end

section
/-! The command word and its command (spec/30_encoding.md R80 to R82), and the step that runs it. -/

namespace Sys2Proof.Machine

/-- Settles O7: a word that decodes to a command has that command's two fields, and a word is its
two fields. -/
theorem decodeExactlyEncoded : Obligations.DecodeExactlyEncoded := by
  unfold Obligations.DecodeExactlyEncoded
  intro w i
  constructor
  · intro h
    obtain ⟨j, hd, hrsvd, hop⟩ | ⟨hd, -⟩ | ⟨hd, -⟩ := decode_cases w
    · obtain rfl : j = i := Decoded.instr.inj (hd.symm.trans h)
      rw [word_fields w, hrsvd, hop, encode]
    · simp [hd] at h
    · simp [hd] at h
  · rintro rfl
    simp [decode]

/-- Settles O9: five of the words are encodings of commands, and the three others have operation
number 0, operation number 12, and a reserved bit. -/
theorem decodeWrittenOutWords : Obligations.DecodeWrittenOutWords := by
  unfold Obligations.DecodeWrittenOutWords
  exact ⟨decode_word_enc, decode_word_dec, decode_word_packs, decode_word_b2s, decode_word_unpack,
    by decide, by decide, by decide⟩

theorem runCommand_instr {s : State} {w : Word} {i : Instr} (h : decode w = .instr i) :
    runCommand w s = exec i (writeReg .cmd w s) := by
  simp [runCommand, h]

/-- Settles O10: the step runs the word written, and a word that decodes to a command runs it. -/
theorem stepRunsDecodedCommand : Obligations.StepRunsDecodedCommand := by
  unfold Obligations.StepRunsDecodedCommand
  intro s rest w i hhost hd
  exact (step_write_cmd hhost).trans (runCommand_instr hd)

end Sys2Proof.Machine
end

section
/-! What no step takes back: a written bit, but for reset, and a recorded fault (spec/10_state.md
R36, spec/60_exceptions.md R207). -/

namespace Sys2Proof.Machine

/-- Every recorded fault and every written bit of `s` stands in `t`. -/
def keepsRecords (s t : State) : Prop :=
  (s.faulted = true → t.faulted = true) ∧ ∀ r, isWritten s r = true → isWritten t r = true

theorem exec_keepsRecords {i : Instr} {s t : State} (h : exec i s = .next t) :
    keepsRecords s t := by
  obtain ⟨_, _, _, _, -, rfl⟩ | ⟨_, _, -, rfl⟩ | ⟨_, _, -, rfl⟩ | ⟨_, _, -, rfl⟩ | ⟨_, _, -, rfl⟩ |
    ⟨_, _, -, rfl⟩ | ⟨_, _, -, rfl⟩ | ⟨_, _, _, -, rfl⟩ := exec_cases h
  all_goals
    exact ⟨fun hf => by simp [hf], fun r hr => by
      simp [hr, isWritten_putStr, isWritten_putBuf, isWritten_putVal, isWritten_putTime,
        isWritten_putPay]⟩

theorem hostRead_keepsRecords (off : Offset) (s : State) : keepsRecords s (hostRead off s) := by
  unfold hostRead
  split
  next r _ => exact ⟨fun hf => by simp [hf], fun r hr => by cases r <;> exact hr⟩
  next => exact ⟨id, fun r hr => by cases r <;> exact hr⟩

theorem writeReg_keepsRecords (r : Reg) (v : Word) (s : State) : keepsRecords s (writeReg r v s) :=
  ⟨fun hf => by simp [hf], fun r' hr => by simp [isWritten_writeReg, hr]⟩

theorem hostWrite_keepsRecords (off : Offset) (v : Word) (s : State) :
    keepsRecords s (hostWrite off v s) := by
  obtain ⟨r, h⟩ | h := hostWrite_cases off v s <;> rw [h]
  · exact writeReg_keepsRecords r v s
  · exact ⟨id, fun _ => id⟩

theorem withHost_keepsRecords (rest : List HostAction) (s : State) :
    keepsRecords s (withHost rest s) :=
  ⟨id, fun r hr => by simp [hr]⟩

theorem keepsRecords_trans {s t u : State} (h : keepsRecords s t) (h' : keepsRecords t u) :
    keepsRecords s u :=
  ⟨h'.1 ∘ h.1, fun r hr => h'.2 r (h.2 r hr)⟩

/-- A step that is no reset keeps every record. -/
theorem step_keepsRecords {s t : State} (hr : s.host.head? ≠ some .reset) (h : step s = .next t) :
    keepsRecords s t := by
  obtain ⟨-, rfl⟩ | ⟨_, hhost, -⟩ | ⟨rest, off, -, -, rfl⟩ | ⟨rest, off, v, -, -, -, rfl⟩ |
    ⟨rest, w, _, -, -, hexec⟩ | ⟨rest, w, _, -, -, rfl⟩ := step_cases h
  · exact ⟨id, fun _ => id⟩
  · simp [hhost] at hr
  · exact keepsRecords_trans (withHost_keepsRecords rest s) (hostRead_keepsRecords off _)
  · exact keepsRecords_trans (withHost_keepsRecords rest s) (hostWrite_keepsRecords off v _)
  · exact keepsRecords_trans (withHost_keepsRecords rest s)
      (keepsRecords_trans (writeReg_keepsRecords .cmd w _) (exec_keepsRecords hexec))
  · exact ⟨id, fun r hr => by simp [hr]⟩

/-- Settles O6: reset keeps the recorded fault, and every other step keeps all records. -/
theorem stepKeepsWrittenAndFault : Obligations.StepKeepsWrittenAndFault := by
  unfold Obligations.StepKeepsWrittenAndFault
  intro s t h
  refine ⟨fun hf => ?_, fun hr => (step_keepsRecords hr h).2⟩
  by_cases hr : s.host.head? = some .reset
  · obtain ⟨rest, hhost⟩ := List.head?_eq_some_iff.mp hr
    cases (step_reset hhost).symm.trans h
    exact hf
  · exact (step_keepsRecords hr h).1 hf

end Sys2Proof.Machine
end

section
/-! The result of each command on operands that pass their checks (spec/40_codec.md,
spec/41_engine_encode.md, spec/42_engine_decode.md). -/

namespace Sys2Proof.Machine

/-! The operands that pass, in the spec's pictures. -/

/-- A valid text of length 26 is read as the value whose text it is. -/
theorem textOperand_valid {s : State} (hl : s.strlen = 26#32) (hv : validText s.str = true) :
    ∃ v, textOperand s = .ok v ∧ s.str = enc26 v := by
  obtain ⟨a, ha⟩ := foldText_valid hv
  obtain ⟨hok, henc⟩ := textOperand_ok hl ha
  exact ⟨_, hok, henc.symm⟩

/-- Sixteen alphabet characters are read as the payload they spell. -/
theorem payFromStr_spells {s : State} (hl : s.pstrlen = 16#32)
    (hd : ∀ j : Fin 16, (idx s.pstr[j.val]).isSome) :
    ∃ p, payFromStr s = .ok p ∧ OverrideOf p s.pstr := by
  obtain ⟨a, ha⟩ := foldSlots_isOk (us := s.pstr.toList) fun u hu => by
    obtain ⟨k, hk, rfl⟩ := Vector.mem_iff_getElem.mp (Vector.mem_toList_iff.mp hu)
    exact hd ⟨k, hk⟩
  exact ⟨_, (payFromStr_ok hl ha).1, overrideOf_fold ha⟩

/-- Sixteen bytes are those of their two fields. -/
theorem packedBytes_fields (b : Vector Byte 16) : PackedBytes (stampOf b) (payloadOf b) b :=
  packedBytes_iff.mpr (pack16_fields b).symm

/-- Their integer is the timestamp above the payload. -/
theorem be16_fields (b : Vector Byte 16) : be16 b = stampOf b ++ payloadOf b := by
  conv_lhs => rw [← pack16_fields b, be16_pack16]

/-- A slot of a text in the list of its first slots. -/
theorem take_getElem? {w : Vector Word 26} {n k : Nat} (hk : k < n) (h26 : k < 26) :
    (w.toList.take n)[k]? = some w[k] := by
  rw [List.getElem?_take_of_lt hk, toList_getElem? w k h26]

/-- The first ten slots are ten characters of the text. -/
theorem first_ten_slots {w : Vector Word 26} {u : Word} (h : u ∈ w.toList.take 10) :
    ∃ i : Fin 26, i.val < 10 ∧ u = w[i.val] := by
  obtain ⟨k, hk, rfl⟩ := List.mem_take_iff_getElem.mp h
  rw [Vector.length_toList] at hk
  exact ⟨⟨k, by omega⟩, by simp; omega, by simp⟩

/-- Ten alphabet characters fold to the value of their digits. -/
theorem foldSlots_first_ten {w : Vector Word 26}
    (h : ∀ i : Fin 26, i.val < 10 → (idx w[i.val]).isSome) :
    ∃ ds : List Digit, ds.length = 10 ∧ w.toList.take 10 = ds.map code ∧ ds.head? = idx w[0] ∧
      foldSlots (w.toList.take 10) = .ok (digitsValue ds) := by
  obtain ⟨a, ha⟩ := foldSlots_isOk (us := w.toList.take 10) fun u hu => by
    obtain ⟨i, hi, rfl⟩ := first_ten_slots hu
    exact h i hi
  obtain ⟨ds, hds, hval, -⟩ := foldFrom_ok ha
  have hlen : ds.length = 10 := by simpa using (congrArg List.length hds).symm
  have hfirst : ds.head?.map code = some w[0] := by
    rw [← List.head?_map, ← hds, List.head?_take, if_neg (by decide), List.head?_eq_getElem?,
      toList_getElem? w 0 (by decide)]
  obtain ⟨d, hd, hcode⟩ := Option.map_eq_some_iff.mp hfirst
  refine ⟨ds, hlen, hds, by rw [hd, ← hcode, idx_code], ?_⟩
  rw [ha, hval]
  simp

/-- The value of ten digits fits 48 bits exactly when the first digit is below 8 (R175, R177). -/
theorem digitsValue_ten_le_iff {ds : List Digit} (hlen : ds.length = 10) :
    digitsValue ds ≤ 2 ^ 48 - 1 ↔ ∀ d ∈ ds.head?, d.toNat < 8 := by
  cases ds with
  | nil => simp at hlen
  | cons d es =>
    have hes := digitsValue_lt es
    have hl : es.length = 9 := by simpa using hlen
    have hval : digitsValue (d :: es) = d.toNat * 32 ^ 9 + digitsValue es := by
      rw [digitsValue, List.map_cons, horner_cons, List.length_map, hl, digitsValue]
    rw [hl] at hes
    simp only [hval, List.head?_cons, Option.mem_def, Option.some.injEq, forall_eq']
    omega

/-- Ten digits of a 48-bit value are that value's (R89, R175). -/
theorem digit_of_stamp {ds : List Digit} {ts : Stamp} (hlen : ds.length = 10)
    (hval : digitsValue ds = ts.toNat) (i : Fin 10) :
    ds[i.val]? = some ((ts.setWidth 50).extractLsb' (45 - 5 * i.val) 5) := by
  have hi : i.val < ds.length := by omega
  have hd := List.getElem?_eq_getElem hi
  rw [hd]
  congr 1
  apply BitVec.eq_of_toNat_eq
  have hts : ts.toNat % 2 ^ 50 = ts.toNat := Nat.mod_eq_of_lt (by have := ts.isLt; omega)
  rw [digit_of_value ds i.val _ hd, hval, hlen, BitVec.extractLsb'_toNat, BitVec.toNat_setWidth,
    hts, Nat.shiftRight_eq_div_pow, show 32 = 2 ^ 5 from rfl, ← pow_mul]
  congr 3
  omega

/-- Ten good characters are read as the timestamp they spell, whatever follows them (R175, R176). -/
theorem textTimeOperand_spells {s : State} (hl : s.strlen = 26#32)
    (hok : ∀ i : Fin 26, i.val < 10 → textSlotOk s.str i = true) :
    ∃ ts, textTimeOperand s = .ok ts ∧
      ∀ i : Fin 10, s.str[i.val] = code ((ts.setWidth 50).extractLsb' (45 - 5 * i.val) 5) := by
  obtain ⟨ds, hlen, hds, hhead, hfold⟩ := foldSlots_first_ten (w := s.str) fun i hi => by
    obtain ⟨d, hd, -⟩ := textSlotOk_iff.mp (hok i hi)
    simp [hd]
  have hsmall : digitsValue ds ≤ 2 ^ 48 - 1 := by
    obtain ⟨d, hd, hd8⟩ := textSlotOk_iff.mp (hok 0 (by decide))
    rw [digitsValue_ten_le_iff hlen, hhead]
    exact fun e he => Option.some.inj (hd.symm.trans he) ▸ hd8 rfl
  refine ⟨_, textTimeOperand_ok hl hfold hsmall, fun i => ?_⟩
  have hval : digitsValue ds = (BitVec.ofNat 48 (digitsValue ds)).toNat := by
    rw [BitVec.toNat_ofNat, Nat.mod_eq_of_lt (by omega)]
  have hs : some s.str[i.val] = ds[i.val]?.map code := by
    rw [← List.getElem?_map, ← hds, take_getElem? i.isLt]
  rw [digit_of_stamp hlen hval i] at hs
  exact Option.some.inj hs

/-! The commands that write a text. -/

/-- Settles O13: `ENC` checks nothing. -/
theorem encWritesText : Obligations.EncWritesText := by
  unfold Obligations.EncWritesText
  intro s
  exact ⟨_, exec_enc s, textOf_iff.mpr rfl, rfl, noError_complete _⟩

/-- Settles O18: an accepted `TIME` gives its low 48 bits, and the override the payload that
it spells. -/
theorem gensWritesText : Obligations.GensWritesText := by
  unfold Obligations.GensWritesText
  intro s ht hl hd
  obtain ⟨p, hp, hover⟩ := payFromStr_spells hl hd
  exact ⟨_, p, exec_gens ht hp, hover, textOf_iff.mpr rfl, rfl, noError_complete _⟩

/-- Settles O19: an accepted `TIME` gives its low 48 bits, and the draw the payload of its bytes. -/
theorem genrWritesText : Obligations.GenrWritesText := by
  unfold Obligations.GenrWritesText
  intro s ht
  exact ⟨_, _, exec_genr ht, drawPayload_byte _, textOf_iff.mpr rfl, rfl, rfl, noError_complete _⟩

/-- Settles O20: any 16 bytes are packed fields, and `B2S` writes the text of their integer. -/
theorem b2sWritesText : Obligations.B2sWritesText := by
  unfold Obligations.B2sWritesText
  intro s hl
  exact ⟨_, _, _, exec_b2s hl, packedBytes_fields s.buf,
    textOf_iff.mpr (congrArg enc26 (be16_fields s.buf)), rfl, noError_complete _⟩

/-! The commands that write bytes. -/

/-- Settles O15: an accepted `TIME` gives its low 48 bits, and `PAY` needs no check. -/
theorem packWritesBytes : Obligations.PackWritesBytes := by
  unfold Obligations.PackWritesBytes
  intro s ht
  exact ⟨_, exec_pack ht, packedBytes_pack16 _ _, rfl, noError_complete _⟩

/-- Settles O16: an accepted `TIME` gives its low 48 bits, and the override the payload that
it spells. -/
theorem packsWritesBytes : Obligations.PacksWritesBytes := by
  unfold Obligations.PacksWritesBytes
  intro s ht hl hd
  obtain ⟨p, hp, hover⟩ := payFromStr_spells hl hd
  exact ⟨_, p, exec_packs ht hp, hover, packedBytes_pack16 _ _, rfl, noError_complete _⟩

/-- Settles O17: an accepted `TIME` gives its low 48 bits, and the drawn bytes are the payload's. -/
theorem packrWritesBytes : Obligations.PackrWritesBytes := by
  unfold Obligations.PackrWritesBytes
  intro s ht
  obtain ⟨hstamp, hpay⟩ :=
    packedBytes_pack16 (lowStamp s) (drawPayload (Config.entropyDraw s.draws))
  exact ⟨_, exec_packr ht, hstamp, fun k => (hpay k).trans (drawPayload_byte _ k), rfl, rfl,
    noError_complete _⟩

/-- Settles O21: the bytes of a valid text's value are the packed fields of that value. -/
theorem s2bWritesBytes : Obligations.S2bWritesBytes := by
  unfold Obligations.S2bWritesBytes
  intro s hl hv
  obtain ⟨v, hok, henc⟩ := textOperand_valid hl hv
  have hfields : v = stampOf (splitBytes v) ++ payloadOf (splitBytes v) := by
    rw [← be16_fields, be16_splitBytes]
  exact ⟨_, _, _, exec_s2b hok, textOf_iff.mpr (henc.trans (congrArg enc26 hfields)),
    packedBytes_fields (splitBytes v), rfl, noError_complete _⟩

/-! The commands that write fields. -/

/-- Settles O14: a valid text is the text of the value that `DEC` reads from it. -/
theorem decWritesValue : Obligations.DecWritesValue := by
  unfold Obligations.DecWritesValue
  intro s hl hv
  obtain ⟨v, hok, henc⟩ := textOperand_valid hl hv
  exact ⟨_, exec_dec hok, textOf_iff.mpr henc, noError_complete _⟩

/-- Settles O22: ten good characters spell a timestamp. -/
theorem dtimeWritesTime : Obligations.DtimeWritesTime := by
  unfold Obligations.DtimeWritesTime
  intro s hl hok
  obtain ⟨ts, hts, hspell⟩ := textTimeOperand_spells hl hok
  exact ⟨_, ts, exec_dtime hts, hspell, rfl, noError_complete _⟩

/-- Settles O23: any 16 bytes are packed fields. -/
theorem unpackWritesFields : Obligations.UnpackWritesFields := by
  unfold Obligations.UnpackWritesFields
  intro s hl
  exact ⟨_, _, _, exec_unpack hl, packedBytes_fields s.buf, rfl, rfl, noError_complete _⟩

end Sys2Proof.Machine
end

section
/-! Every command in one form: it reads words, checks its operands, and writes one result or raises
one error. What holds of all commands is derived from this form. -/

namespace Sys2Proof.Machine

/-! The form of a command. -/

/-- A result as a command writes it (spec/10_state.md R34, column "writes on success"). -/
inductive Effect where
  | text (c : Vector Word 26)
  | bytes (b : Vector Byte 16)
  | value (v : Value)
  | time (ts : Stamp)
  | fields (ts : Stamp) (p : Payload)

/-- The result written. -/
def Effect.store : Effect → State → State
  | .text c, s => putStr c s
  | .bytes b, s => putBuf b s
  | .value v, s => putVal v s
  | .time ts, s => putTime (ts.setWidth 64) s
  | .fields ts p, s => putPay p (putTime (ts.setWidth 64) s)

/-- The words a result is written to. -/
def Effect.reg : Effect → Reg → Bool
  | .text _, r => textReg r
  | .bytes _, r => bufReg r
  | .value _, r => valReg r
  | .time _, r => timeReg r
  | .fields _ _, r => timeReg r || payReg r

/-- A further computation on an operand that has passed its check. -/
def Checked.bind {α β : Type} (c : Checked α) (f : α → Checked β) : Checked β :=
  match c with
  | .ok a => f a
  | .bad e pos ch => .bad e pos ch

/-- A computation that cannot fail, on an operand that has passed its check. -/
def Checked.map {α β : Type} (f : α → β) (c : Checked α) : Checked β := c.bind fun a => .ok (f a)

section
variable {α β : Type}

@[simp] theorem Checked.bind_ok (a : α) (f : α → Checked β) : (Checked.ok a).bind f = f a := rfl

@[simp] theorem Checked.bind_bad (e : ErrorCode) (pos : BitVec 5) (ch : Word) (f : α → Checked β) :
    (Checked.bad e pos ch).bind f = .bad e pos ch := rfl

@[simp] theorem Checked.map_ok (a : α) (f : α → β) : (Checked.ok a).map f = .ok (f a) := rfl

@[simp] theorem Checked.map_bad (e : ErrorCode) (pos : BitVec 5) (ch : Word) (f : α → β) :
    (Checked.bad e pos ch).map f = .bad e pos ch := rfl

/-- What a passed operand makes is what the computation makes of some operand. -/
theorem Checked.map_eq_ok {c : Checked α} {f : α → β} {b : β} (h : c.map f = .ok b) :
    ∃ a, c = .ok a ∧ f a = b := by
  cases c with
  | ok a => exact ⟨a, rfl, Checked.ok.inj h⟩
  | bad => cases h

theorem Checked.bind_eq_ok {c : Checked α} {f : α → Checked β} {b : β} (h : c.bind f = .ok b) :
    ∃ a, c = .ok a ∧ f a = .ok b := by
  cases c with
  | ok a => exact ⟨a, rfl, h⟩
  | bad => cases h

end

/-- The result of a command, or the error that it reports. -/
def answer (i : Instr) (s : State) : Checked Effect :=
  match i with
  | .enc => .ok (.text (enc26 s.val))
  | .dec => (textOperand s).map .value
  | .pack => (ts48 s).map fun ts => .bytes (pack16 ts s.pay)
  | .packs => (ts48 s).bind fun ts => (payFromStr s).map fun p => .bytes (pack16 ts p)
  | .packr => (ts48 s).map fun ts => .bytes (pack16 ts (drawPayload (Config.entropyDraw s.draws)))
  | .gens => (ts48 s).bind fun ts => (payFromStr s).map fun p => .text (enc26 (ts ++ p))
  | .genr =>
    (ts48 s).map fun ts => .text (enc26 (ts ++ drawPayload (Config.entropyDraw s.draws)))
  | .b2s => (binaryOperand s).map fun b => .text (enc26 (be16 b))
  | .s2b => (textOperand s).map fun v => .bytes (splitBytes v)
  | .dtime => (textTimeOperand s).map .time
  | .unpack => (binaryOperand s).map fun b => .fields (stampOf b) (payloadOf b)

/-- `TIME`, and the words `rs` after it only when the timestamp passes (R34, R208). -/
def timeThen (s : State) (rs : List Reg) : List Reg :=
  timeReads ++
    match ts48 s with
    | .ok _ => rs
    | .bad _ _ _ => []

theorem timeThen_ok {s : State} {ts : Stamp} (h : ts48 s = .ok ts) (rs : List Reg) :
    timeThen s rs = timeReads ++ rs := by simp [timeThen, h]

theorem timeThen_bad {s : State} {e : ErrorCode} {pos : BitVec 5} {ch : Word}
    (h : ts48 s = .bad e pos ch) (rs : List Reg) : timeThen s rs = timeReads := by
  simp [timeThen, h]

/-- The words a command reads (R34). -/
def commandReads (i : Instr) (s : State) : List Reg :=
  match i with
  | .enc => valReads
  | .dec | .s2b => textReads s
  | .pack => timeThen s payReads
  | .packs | .gens => timeThen s (payStrReads s)
  | .packr | .genr => timeReads
  | .b2s | .unpack => binaryReads s
  | .dtime => textTimeReads s

/-- Whether a success of the command takes a draw (spec/10_state.md R33). -/
def takesDraw : Instr → Bool
  | .packr | .genr => true
  | .enc | .dec | .pack | .packs | .gens | .b2s | .s2b | .dtime | .unpack => false

theorem takesDraw_iff (i : Instr) : takesDraw i = true ↔ i = .packr ∨ i = .genr := by
  cases i <;> simp [takesDraw]

/-- The draw of a command that takes one. -/
def drawIf (i : Instr) (s : State) : State := if takesDraw i then countDraw s else s

/-- Every command is its reads, its answer, and the result written. -/
theorem exec_eq (i : Instr) (s : State) :
    exec i s = .next (guarded (commandReads i s) (answer i s) s fun eff s' =>
      complete (eff.store (drawIf i s'))) := by
  cases i with
  | enc => rfl
  | dec | s2b =>
    simp only [exec, execDec, execS2b, commandReads, answer]
    cases textOperand s <;> simp [drawIf, takesDraw, Effect.store]
  | dtime =>
    simp only [exec, execDtime, commandReads, answer]
    cases textTimeOperand s <;> simp [drawIf, takesDraw, Effect.store]
  | b2s | unpack =>
    simp only [exec, execB2s, execUnpack, commandReads, answer]
    cases binaryOperand s <;> simp [drawIf, takesDraw, Effect.store]
  | packr | genr =>
    simp only [exec, execPackr, execGenr, commandReads, answer]
    cases ts48 s <;> simp [withDraw, drawIf, takesDraw, Effect.store]
  | pack =>
    cases hts : ts48 s with
    | ok ts =>
      simp only [exec, execPack, commandReads, answer, hts, timeThen_ok hts, Checked.map_ok,
        guarded_ok, noteRead_noteRead, drawIf, takesDraw, Effect.store, Bool.false_eq_true,
        if_false]
    | bad => simp [exec, execPack, commandReads, answer, hts, timeThen_bad hts]
  | packs | gens =>
    cases hts : ts48 s with
    | ok ts =>
      simp only [exec, execPacks, execGens, commandReads, answer, hts, timeThen_ok hts,
        Checked.bind_ok, guarded_ok, be16_pack16]
      cases payFromStr s <;> simp [noteRead_noteRead, drawIf, takesDraw, Effect.store]
    | bad => simp [exec, execPacks, execGens, commandReads, answer, hts, timeThen_bad hts]

section
variable {i : Instr} {s t : State}

theorem exec_of_ok {eff : Effect} (h : answer i s = .ok eff) :
    exec i s = .next (complete (eff.store (drawIf i (noteRead (commandReads i s) s)))) := by
  rw [exec_eq, h, guarded_ok]

theorem exec_of_bad {e : ErrorCode} {pos : BitVec 5} {ch : Word} (h : answer i s = .bad e pos ch) :
    exec i s = .next (raise e pos ch (noteRead (commandReads i s) s)) := by
  rw [exec_eq, h, guarded_bad]

/-- A command completes with its result or raises its error, and its status says which. -/
theorem exec_answer_cases (h : exec i s = .next t) :
    (∃ eff, answer i s = .ok eff ∧ t.err = 0#4 ∧
      t = complete (eff.store (drawIf i (noteRead (commandReads i s) s)))) ∨
    (∃ e pos ch, answer i s = .bad e pos ch ∧ t.err ≠ 0#4 ∧
      t = raise e pos ch (noteRead (commandReads i s) s)) := by
  cases ha : answer i s with
  | ok eff =>
    cases (exec_of_ok ha).symm.trans h
    exact .inl ⟨eff, rfl, rfl, rfl⟩
  | bad e pos ch =>
    cases (exec_of_bad ha).symm.trans h
    exact .inr ⟨e, pos, ch, rfl, errorNumber_ne_zero e, rfl⟩

/-- The result that a command computes is written to the words R34 lists. -/
theorem answer_reg {eff : Effect} (h : answer i s = .ok eff) (r : Reg) :
    eff.reg r = resultReg i r := by
  cases i with
  | enc => cases h; rfl
  | dec | pack | packr | genr | b2s | s2b | dtime | unpack =>
    obtain ⟨a, -, rfl⟩ := Checked.map_eq_ok h
    rfl
  | packs | gens =>
    obtain ⟨ts, -, hp⟩ := Checked.bind_eq_ok h
    obtain ⟨p, -, rfl⟩ := Checked.map_eq_ok hp
    rfl

end

/-! A result written, word by word. -/

section
variable (eff : Effect) (i : Instr) (s : State) (r : Reg)

theorem isWritten_store : isWritten (eff.store s) r = (eff.reg r || isWritten s r) := by
  cases eff with
  | text c => exact isWritten_putStr s c r
  | bytes b => exact isWritten_putBuf s b r
  | value v => exact isWritten_putVal s v r
  | time ts => exact isWritten_putTime s _ r
  | fields ts p =>
    rw [Effect.store, Effect.reg, isWritten_putPay, isWritten_putTime, Bool.or_left_comm,
      Bool.or_assoc]

theorem readReg_store {eff : Effect} {r : Reg} (h : eff.reg r = false) :
    readReg (eff.store s) r = readReg s r := by
  cases eff with
  | text c => exact readReg_putStr s c h
  | bytes b => exact readReg_putBuf s b h
  | value v => exact readReg_putVal s v h
  | time ts => exact readReg_putTime s _ h
  | fields ts p =>
    obtain ⟨htime, hpay⟩ := Bool.or_eq_false_iff.mp h
    exact (readReg_putPay _ p hpay).trans (readReg_putTime s _ htime)

/-- The status is no part of a result. -/
theorem statusReg_of_reg {eff : Effect} {r : Reg} (h : eff.reg r = true) : statusReg r = false := by
  cases eff <;> cases r <;> first | rfl | cases h

/-- A result read back does not depend on the state it was written in. -/
theorem readReg_store_result {eff : Effect} {r : Reg} (h : eff.reg r = true) (s s' : State) :
    readReg (eff.store s) r = readReg (eff.store s') r := by
  cases eff with
  | text c =>
    cases r with
    | str | strlen => rfl
    | _ => cases h
  | bytes b =>
    cases r with
    | buf | buflen => rfl
    | _ => cases h
  | value v =>
    cases r with
    | val => rfl
    | _ => cases h
  | time ts =>
    cases r with
    | timeh | timel => rfl
    | _ => cases h
  | fields ts p =>
    cases r with
    | timeh | timel | pay => rfl
    | _ => cases h

@[simp] theorem store_host : (eff.store s).host = s.host := by cases eff <;> rfl
@[simp] theorem store_reads : (eff.store s).reads = s.reads := by cases eff <;> rfl
@[simp] theorem store_draws : (eff.store s).draws = s.draws := by cases eff <;> rfl
@[simp] theorem store_faulted : (eff.store s).faulted = s.faulted := by cases eff <;> rfl

/-- A completed result written again changes nothing. -/
theorem complete_store_again :
    complete (eff.store (complete (eff.store s))) = complete (eff.store s) := by
  cases eff <;> rfl

@[simp] theorem drawIf_host : (drawIf i s).host = s.host := by cases i <;> rfl
@[simp] theorem drawIf_reads : (drawIf i s).reads = s.reads := by cases i <;> rfl
@[simp] theorem drawIf_faulted : (drawIf i s).faulted = s.faulted := by cases i <;> rfl
@[simp] theorem isWritten_drawIf : isWritten (drawIf i s) r = isWritten s r := by
  unfold drawIf; split <;> simp
@[simp] theorem readReg_drawIf : readReg (drawIf i s) r = readReg s r := by
  unfold drawIf; split <;> simp

theorem drawIf_draws : (drawIf i s).draws = s.draws + if takesDraw i then 1 else 0 := by
  cases i <;> rfl

theorem drawIf_of_not_takesDraw {i : Instr} (h : takesDraw i = false) : drawIf i s = s := by
  simp [drawIf, h]

end

/-! What every command leaves unchanged (R34). -/

section
variable {i : Instr} {s t : State} {r : Reg}

theorem sameWord_of_exec (h : exec i s = .next t) (hr : resultReg i r = false)
    (hs : statusReg r = false) : sameWord s t r := by
  obtain ⟨eff, ha, -, rfl⟩ | ⟨e, pos, ch, -, -, rfl⟩ := exec_answer_cases h
  · rw [← answer_reg ha] at hr
    constructor
    · rw [readReg_complete _ hs, readReg_store _ hr, readReg_drawIf, readReg_noteRead]
    · rw [isWritten_complete, isWritten_store, hr, Bool.false_or, isWritten_drawIf,
        isWritten_noteRead]
  · exact ⟨by rw [readReg_raise _ _ _ _ hs, readReg_noteRead],
      by rw [isWritten_raise, isWritten_noteRead]⟩

theorem exec_host_reads (h : exec i s = .next t) : t.host = s.host ∧ t.reads = s.reads := by
  obtain ⟨eff, -, -, rfl⟩ | ⟨e, pos, ch, -, -, rfl⟩ := exec_answer_cases h <;> simp

end

/-- Settles O31: the four commands' results are the text. -/
theorem textCommandsFrame : Obligations.TextCommandsFrame := by
  unfold Obligations.TextCommandsFrame
  intro i hi s t h
  have hres : ∀ r, resultReg i r = textReg r := by
    intro r
    fin_cases hi <;> rfl
  exact ⟨fun r hr hs => sameWord_of_exec h ((hres r).trans hr) hs, exec_host_reads h⟩

/-- Settles O32: the four commands' results are the buffer. -/
theorem bufferCommandsFrame : Obligations.BufferCommandsFrame := by
  unfold Obligations.BufferCommandsFrame
  intro i hi s t h
  have hres : ∀ r, resultReg i r = bufReg r := by
    intro r
    fin_cases hi <;> rfl
  exact ⟨fun r hr hs => sameWord_of_exec h ((hres r).trans hr) hs, exec_host_reads h⟩

/-- Settles O33: the results are `VAL`, `TIME`, and `TIME` with `PAY`. -/
theorem fieldCommandsFrame : Obligations.FieldCommandsFrame := by
  unfold Obligations.FieldCommandsFrame
  intro s t
  exact ⟨fun h _ hr hs => sameWord_of_exec h hr hs, fun h _ hr hs => sameWord_of_exec h hr hs,
    fun h _ hr hs => sameWord_of_exec h hr hs, fun _ _ h => exec_host_reads h⟩

/-- Settles O34: the draw is part of a completion, and an error is raised without one. -/
theorem drawsOnlyOnRandomSuccess : Obligations.DrawsOnlyOnRandomSuccess := by
  unfold Obligations.DrawsOnlyOnRandomSuccess
  intro i s t h
  simp only [← takesDraw_iff]
  obtain ⟨eff, -, he, rfl⟩ | ⟨e, pos, ch, -, he, rfl⟩ := exec_answer_cases h
  · simp [drawIf_draws]
  · simp [errorNumber_ne_zero]

end Sys2Proof.Machine
end

section
/-! What a command rejects: the error it reports, and the words it has read before it
(spec/60_exceptions.md R200 to R208). -/

namespace Sys2Proof.Machine

/-- A rejected operand is reported, changes the status alone, and has read the command's words. -/
theorem exec_rejects {i : Instr} {s : State} {e : ErrorCode} {pos : BitVec 5} {ch : Word} {n : Nat}
    {p : Reg → Prop} (h : answer i s = .bad e pos ch) (hn : pos.toNat = n)
    (hp : ∀ r, r ∈ commandReads i s ↔ p r) :
    ∃ t, exec i s = .next t ∧ reports t (errorNumber e).toNat n ch ∧ sameButStatus s t ∧
      readsExactly s t p :=
  ⟨_, exec_of_bad h, hn ▸ reports_raise e pos ch _, rfl, readsExactly_of_faulted rfl hp⟩

/-- A slot number is a position in `STATUS` (R28). -/
theorem slot_position {n : Nat} (h : n < 32) : (BitVec.ofNat 5 n).toNat = n := by
  rw [BitVec.toNat_ofNat, Nat.mod_eq_of_lt h]

/-- A slot of a vector of slots, found in its list. -/
theorem slot_of_getElem? {n : Nat} {w : Vector Word n} {k : Nat} {u : Word}
    (h : w.toList[k]? = some u) : ∃ hk : k < n, u = w[k] := by
  obtain ⟨hk, rfl⟩ := List.getElem?_eq_some_iff.mp h
  exact ⟨by simpa using hk, by simp⟩

/-- The first slot of `PSTR` outside the alphabet is the one its fold stops at. -/
theorem foldSlots_first {n : Nat} {w : Vector Word n} {j : Fin n} (h : idx w[j.val] = none)
    (hb : ∀ k : Fin n, k.val < j.val → (idx w[k.val]).isSome) :
    foldSlots w.toList = .bad j.val w[j.val] :=
  foldSlots_isBad (toList_getElem? w j.val j.isLt) h fun l hl u hu => by
    obtain ⟨hlt, rfl⟩ := slot_of_getElem? hu
    exact hb ⟨l, hlt⟩ hl

/-- The first of the slots 0 to 9 outside the alphabet is the one that `DTIME` stops at. -/
theorem foldSlots_first_of_ten {w : Vector Word 26} {i : Fin 26} (hi : i.val < 10)
    (h : idx w[i.val] = none) (hb : ∀ k : Fin 26, k.val < i.val → (idx w[k.val]).isSome) :
    foldSlots (w.toList.take 10) = .bad i.val w[i.val] :=
  foldSlots_isBad (take_getElem? hi i.isLt) h fun l hl u hu => by
    rw [List.getElem?_take_of_lt (by omega)] at hu
    obtain ⟨hlt, rfl⟩ := slot_of_getElem? hu
    exact hb ⟨l, hlt⟩ hl

/-- Ten alphabet characters of which the first is above 7 spell more than 48 bits (R177). -/
theorem foldSlots_above_range {w : Vector Word 26}
    (h : ∀ i : Fin 26, i.val < 10 → (idx w[i.val]).isSome) (h0 : textSlotOk w 0 = false) :
    ∃ a, foldSlots (w.toList.take 10) = .ok a ∧ 2 ^ 48 - 1 < a := by
  obtain ⟨ds, hlen, -, hhead, hfold⟩ := foldSlots_first_ten h
  refine ⟨_, hfold, ?_⟩
  rw [← Nat.not_le, digitsValue_ten_le_iff hlen, hhead]
  intro hall
  obtain hnone | ⟨-, d, hd, hd8⟩ := textSlotOk_false h0
  · have hsome := h 0 (by decide)
    rw [hnone] at hsome
    cases hsome
  · exact absurd (hall d hd) (by omega)

/-- Settles O24: of the five commands, each checks the timestamp first. -/
theorem timestampRejected : Obligations.TimestampRejected := by
  unfold Obligations.TimestampRejected
  intro s h0 ht i hi
  have hts := ts48_rejects h0 ht
  have hans : answer i s = .bad .timestampOutOfRange 0#5 0#32 := by
    fin_cases hi <;> simp [answer, hts]
  have hreads : commandReads i s = timeReads := by
    fin_cases hi <;> simp [commandReads, timeThen_bad hts]
  exact exec_rejects hans rfl fun r => hreads ▸ timeReads_iff r

/-- Settles O25: the timestamp passes, and the override's length or its first bad slot does not. -/
theorem payloadRejected : Obligations.PayloadRejected := by
  unfold Obligations.PayloadRejected
  intro s ht i hi
  have hreads : ∀ r, r ∈ commandReads i s ↔ timeReg r = true ∨ r ∈ payStrReads s := fun r => by
    rw [← timeReads_iff, ← List.mem_append, ← timeThen_ok (ts48_ok ht)]
    fin_cases hi <;> rfl
  have hans : ∀ {e pos ch}, payFromStr s = .bad e pos ch → answer i s = .bad e pos ch := by
    intro e pos ch hp
    fin_cases hi <;> simp [answer, ts48_ok ht, hp]
  refine ⟨fun hl => ?_, fun hl j hj hb => ?_⟩
  · refine exec_rejects (hans (payFromStr_length hl)) rfl fun r => ?_
    rw [hreads, payStrReads_length hl]
  · have hfold := foldSlots_first hj hb
    refine exec_rejects (hans (payFromStr_bad hl hfold)) (slot_position (by omega)) fun r => ?_
    rw [hreads, payStrReads_bad hl hfold]

/-- Settles O26: the text's length or its first bad slot does not pass. -/
theorem textRejected : Obligations.TextRejected := by
  unfold Obligations.TextRejected
  intro s c hc
  have hreads : commandReads c s = textReads s := by fin_cases hc <;> rfl
  have hans : ∀ {e pos ch}, textOperand s = .bad e pos ch → answer c s = .bad e pos ch := by
    intro e pos ch ht
    fin_cases hc <;> simp [answer, ht]
  refine ⟨fun hl => ?_, fun hl i hi hb => ?_⟩
  · exact exec_rejects (hans (textOperand_length hl)) rfl fun r => hreads ▸ textReads_length hl r
  · have hfold := foldText_first hi hb
    exact exec_rejects (hans (textOperand_bad hl hfold)) (slot_position (by omega)) fun r =>
      hreads ▸ textReads_bad hl hfold r

theorem textTimeReg_iff (r : Reg) :
    textTimeReg r = true ↔ r = .strlen ∨ ∃ k : Fin 26, k.val < 10 ∧ r = .str k := by
  cases r <;> simp [textTimeReg]

/-- Settles O27: the length, the first bad one of ten slots, or the range of ten good ones does not
pass. -/
theorem textTimeRejected : Obligations.TextTimeRejected := by
  unfold Obligations.TextTimeRejected
  intro s
  have hans : ∀ {e pos ch}, textTimeOperand s = .bad e pos ch → answer .dtime s = .bad e pos ch :=
    fun ht => by simp [answer, ht]
  refine ⟨fun hl => ?_, fun hl i hi hbad hb => ?_, fun hl hok h0 => ?_⟩
  · exact exec_rejects (hans (textTimeOperand_length hl)) rfl (textTimeReads_length hl)
  · have hfold := foldSlots_first_of_ten hi hbad hb
    exact exec_rejects (hans (textTimeOperand_bad hl hfold)) (slot_position (by omega))
      (textTimeReads_bad hl hfold)
  · obtain ⟨a, hfold, ha⟩ := foldSlots_above_range hok h0
    exact exec_rejects (hans (textTimeOperand_range hl hfold ha)) rfl fun r =>
      (textTimeReads_ok hl hfold r).trans (textTimeReg_iff r).symm

/-- Settles O28: the buffer's length is its only check. -/
theorem binaryLengthRejected : Obligations.BinaryLengthRejected := by
  unfold Obligations.BinaryLengthRejected
  intro s hl i hi
  have hans : answer i s = .bad .invalidLength 0#5 0#32 := by
    fin_cases hi <;> simp [answer, binaryOperand_length hl]
  have hreads : commandReads i s = binaryReads s := by fin_cases hi <;> rfl
  exact exec_rejects hans rfl fun r => hreads ▸ binaryReads_length hl r

end Sys2Proof.Machine
end

section
/-! Which words a command reads, and what its outcome depends on (spec/10_state.md R34 to R36). -/

namespace Sys2Proof.Machine

/-! The record of a fault. -/

section
variable {i : Instr} {s t : State}

/-- A command records a fault for the words it reads, and for no other. -/
theorem exec_faulted (h : exec i s = .next t) :
    t.faulted = (noteRead (commandReads i s) s).faulted := by
  obtain ⟨eff, -, -, rfl⟩ | ⟨e, pos, ch, -, -, rfl⟩ := exec_answer_cases h <;> simp

theorem exec_faulted_iff (h : exec i s = .next t) :
    t.faulted = false ↔ s.faulted = false ∧ ∀ r ∈ commandReads i s, isWritten s r = true := by
  rw [exec_faulted h, noteRead_faulted_iff]

theorem textOperand_eq_ok {v : Value} (h : textOperand s = .ok v) :
    s.strlen = 26#32 ∧ ∃ a, foldText s.str.toList = .ok a := by
  unfold textOperand at h
  split at h
  next => cases h
  next hl =>
    split at h
    next => cases h
    next a ha => exact ⟨not_not.mp hl, a, ha⟩

theorem payFromStr_eq_ok {p : Payload} (h : payFromStr s = .ok p) :
    s.pstrlen = 16#32 ∧ ∃ a, foldSlots s.pstr.toList = .ok a := by
  unfold payFromStr at h
  split at h
  next => cases h
  next hl =>
    split at h
    next => cases h
    next a ha => exact ⟨not_not.mp hl, a, ha⟩

theorem textTimeOperand_eq_ok {ts : Stamp} (h : textTimeOperand s = .ok ts) :
    s.strlen = 26#32 ∧ ∃ a, foldSlots (s.str.toList.take 10) = .ok a := by
  unfold textTimeOperand at h
  split at h
  next => cases h
  next hl =>
    split at h
    next => cases h
    next a ha => exact ⟨not_not.mp hl, a, ha⟩

theorem binaryOperand_eq_ok {b : Vector Byte 16} (h : binaryOperand s = .ok b) :
    s.buflen = 16#32 := by
  unfold binaryOperand at h
  split at h
  next => cases h
  next hl => exact not_not.mp hl

theorem valReads_iff (r : Reg) : r ∈ valReads ↔ valReg r = true := by
  cases r with
  | val w => fin_cases w <;> simp [valReads, valReg]
  | _ => simp [valReads, valReg]

theorem payReads_iff (r : Reg) : r ∈ payReads ↔ payReg r = true := by
  cases r with
  | pay w => fin_cases w <;> simp [payReads, payReg]
  | _ => simp [payReads, payReg]

theorem textReg_iff (r : Reg) : textReg r = true ↔ r = .strlen ∨ ∃ k, r = .str k := by
  cases r <;> simp [textReg]

theorem payStrReg_iff (r : Reg) : payStrReg r = true ↔ r = .pstrlen ∨ ∃ k, r = .pstr k := by
  cases r <;> simp [payStrReg]

/-- A command that succeeds has read its operands, all of R34's but `CTRL`, which reset defines. -/
theorem commandReads_of_ok {eff : Effect} (h : answer i s = .ok eff) (r : Reg) :
    operandReg i r = true ↔ ctrlReg r = true ∧ operandReg i r = true ∨ r ∈ commandReads i s := by
  have absorb : ∀ {c p : Prop}, p ↔ c ∧ p ∨ p := (or_iff_right_of_imp And.right).symm
  cases i with
  | enc =>
    rw [commandReads, valReads_iff]
    exact absorb
  | dec | s2b =>
    obtain ⟨v, hv, -⟩ := Checked.map_eq_ok h
    obtain ⟨hl, a, ha⟩ := textOperand_eq_ok hv
    rw [commandReads, textReads_ok hl ha, ← textReg_iff]
    exact absorb
  | dtime =>
    obtain ⟨ts, hts, -⟩ := Checked.map_eq_ok h
    obtain ⟨hl, a, ha⟩ := textTimeOperand_eq_ok hts
    rw [commandReads, textTimeReads_ok hl ha, ← textTimeReg_iff]
    exact absorb
  | b2s | unpack =>
    obtain ⟨b, hb, -⟩ := Checked.map_eq_ok h
    rw [commandReads, binaryReads_ok (binaryOperand_eq_ok hb)]
    exact absorb
  | packr | genr =>
    simp only [operandReg, Bool.or_eq_true, commandReads, timeReads_iff]
    tauto
  | pack =>
    obtain ⟨ts, hts, -⟩ := Checked.map_eq_ok h
    simp only [operandReg, Bool.or_eq_true, commandReads, timeThen_ok hts, List.mem_append,
      timeReads_iff, payReads_iff]
    tauto
  | packs | gens =>
    obtain ⟨ts, hts, hm⟩ := Checked.bind_eq_ok h
    obtain ⟨p, hp, -⟩ := Checked.map_eq_ok hm
    obtain ⟨hl, a, ha⟩ := payFromStr_eq_ok hp
    simp only [operandReg, Bool.or_eq_true, commandReads, timeThen_ok hts, List.mem_append,
      timeReads_iff, payStrReads_ok hl ha, ← payStrReg_iff]
    tauto

theorem isWritten_of_ctrlReg {r : Reg} (h : ctrlReg r = true) : isWritten s r = true := by
  cases r <;> first | rfl | cases h

end

/-- Settles O37: a success has read its operands, and a result written is marked written. -/
theorem successReadsWrittenOperands : Obligations.SuccessReadsWrittenOperands := by
  unfold Obligations.SuccessReadsWrittenOperands
  intro i s t h he
  obtain ⟨eff, ha, -, rfl⟩ | ⟨e, pos, ch, -, hne, -⟩ := exec_answer_cases h
  · refine ⟨(exec_faulted_iff h).trans (and_congr_right fun _ => ⟨fun hr r hop => ?_,
      fun hr r hmem => hr r ((commandReads_of_ok ha r).mpr (.inr hmem))⟩), fun r hres => ?_⟩
    · obtain ⟨hctrl, -⟩ | hmem := (commandReads_of_ok ha r).mp hop
      · exact isWritten_of_ctrlReg hctrl
      · exact hr r hmem
    · rw [isWritten_complete, isWritten_store, answer_reg ha, hres, Bool.true_or]
  · exact absurd he hne

/-! Where the check of a text stops. -/

section
variable {s t : State}

/-- The words of a text operand are written when `STRLEN` is and the slots read are. -/
theorem written_text_iff {rs : List Reg} {p : Fin 26 → Prop} (hl : isWritten s .strlen = true)
    (h : ∀ r, r ∈ rs ↔ r = .strlen ∨ ∃ k, p k ∧ r = .str k) :
    (∀ r ∈ rs, isWritten s r = true) ↔ ∀ k, p k → isWritten s (.str k) = true := by
  constructor
  · exact fun hall k hk => hall _ ((h _).mpr (.inr ⟨k, hk, rfl⟩))
  · intro hall r hr
    obtain rfl | ⟨k, hk, rfl⟩ := (h r).mp hr
    · exact hl
    · exact hall k hk

/-- `DTIME` reads no slot from 10 on (R176). -/
theorem textTimeReg_of_mem_reads {r : Reg} (h : r ∈ textTimeReads s) : textTimeReg r = true := by
  rw [textTimeReg_iff]
  by_cases hl : s.strlen = 26#32
  · cases hf : foldSlots (s.str.toList.take 10) with
    | ok a => exact (textTimeReads_ok hl hf r).mp h
    | bad i u =>
      have hi := fold_bad_lt hf
      simp only [List.length_take, Vector.length_toList] at hi
      obtain rfl | ⟨k, hk, rfl⟩ := (textTimeReads_bad hl hf r).mp h
      · exact .inl rfl
      · exact .inr ⟨k, by omega, rfl⟩
  · exact .inl ((textTimeReads_length hl r).mp h)

end

/-- Settles O38: a command records a fault for the words it reads, and those are the slots up to
the one where its check stops. -/
theorem textReadsStopAtFirstBadSlot : Obligations.TextReadsStopAtFirstBadSlot := by
  unfold Obligations.TextReadsStopAtFirstBadSlot
  intro s t hf hw
  have hiff : ∀ {c}, exec c s = .next t →
      (t.faulted = false ↔ ∀ r ∈ commandReads c s, isWritten s r = true) := fun h => by
    rw [exec_faulted_iff h]
    exact and_iff_right hf
  refine ⟨fun c hc hl h => (hiff h).mpr fun r hr => ?_, fun c hc hl h i hi hb => ?_,
    fun hl h i hi hbad hb => ?_, fun hl h hok => ?_, fun hslots h => (hiff h).mpr fun r hr => ?_⟩
  · have hstrlen : r = .strlen := by
      fin_cases hc
      · exact (textReads_length hl r).mp hr
      · exact (textReads_length hl r).mp hr
      · exact (textTimeReads_length hl r).mp hr
    exact hstrlen ▸ hw
  · have hreads : commandReads c s = textReads s := by fin_cases hc <;> rfl
    rw [hiff h, hreads]
    exact written_text_iff hw (textReads_bad hl (foldText_first hi hb))
  · rw [hiff h]
    exact written_text_iff hw (textTimeReads_bad hl (foldSlots_first_of_ten hi hbad hb))
  · obtain ⟨ds, -, -, -, hfold⟩ := foldSlots_first_ten hok
    rw [hiff h]
    exact written_text_iff hw (textTimeReads_ok hl hfold)
  · obtain rfl | ⟨k, hk, rfl⟩ := (textTimeReg_iff r).mp (textTimeReg_of_mem_reads hr)
    · exact hw
    · exact hslots k hk

/-! The answer depends on the operands and the draw alone (R35). -/

section
variable {i : Instr} {s s' t : State}

/-- The first ten slots are determined by their words in the window. -/
theorem first_ten_of_words
    (h : ∀ k : Fin 26, k.val < 10 → readReg s (.str k) = readReg s' (.str k)) :
    s.str.toList.take 10 = s'.str.toList.take 10 := by
  apply List.ext_getElem (by simp)
  intro k hk _
  have hk10 : k < 10 := by simp at hk; omega
  simp only [List.getElem_take, Vector.getElem_toList]
  exact h ⟨k, by omega⟩ hk10

/-- Two states that agree on a command's operands and on its draw have one answer, and the command
reads the same words in both. -/
theorem answer_congr (h : ∀ r, operandReg i r = true → readReg s r = readReg s' r)
    (hd : takesDraw i = true → Config.entropyDraw s.draws = Config.entropyDraw s'.draws) :
    answer i s = answer i s' ∧ commandReads i s = commandReads i s' := by
  cases i with
  | enc =>
    have hval := val_of_words fun w => h (.val w) rfl
    simp [answer, commandReads, hval]
  | dec | s2b =>
    have hlen : s.strlen = s'.strlen := h .strlen rfl
    have hstr := str_of_words fun k => h (.str k) rfl
    simp [answer, commandReads, textOperand, textReads, hlen, hstr]
  | dtime =>
    have hlen : s.strlen = s'.strlen := h .strlen rfl
    have hstr := first_ten_of_words fun k hk => h (.str k) (decide_eq_true hk)
    simp [answer, commandReads, textTimeOperand, textTimeReads, hlen, hstr]
  | b2s | unpack =>
    have hlen : s.buflen = s'.buflen := h .buflen rfl
    have hbuf := buf_of_words fun w => h (.buf w) rfl
    simp [answer, commandReads, binaryOperand, binaryReads, hlen, hbuf]
  | packr | genr =>
    have hpol := tspol_of_word (h .ctrl rfl)
    have htime := time_of_words (h .timeh rfl) (h .timel rfl)
    simp [answer, commandReads, ts48, hpol, htime, hd rfl]
  | pack =>
    have hpol := tspol_of_word (h .ctrl rfl)
    have htime := time_of_words (h .timeh rfl) (h .timel rfl)
    have hpay := pay_of_words fun w => h (.pay w) rfl
    simp [answer, commandReads, timeThen, ts48, hpol, htime, hpay]
  | packs | gens =>
    have hpol := tspol_of_word (h .ctrl rfl)
    have htime := time_of_words (h .timeh rfl) (h .timel rfl)
    have hlen : s.pstrlen = s'.pstrlen := h .pstrlen rfl
    have hpstr := pstr_of_words fun k => h (.pstr k) rfl
    simp [answer, commandReads, timeThen, ts48, payFromStr, payStrReads, hpol, htime, hlen, hpstr]

end

/-- Settles O35: the two states have one answer, which is an error or a result. -/
theorem outcomeDependsOnOperandsOnly : Obligations.OutcomeDependsOnOperandsOnly := by
  unfold Obligations.OutcomeDependsOnOperandsOnly
  intro i s s' t t' hop hd h h'
  obtain ⟨hans, -⟩ := answer_congr hop fun hi => hd ((takesDraw_iff i).mp hi)
  cases ha : answer i s with
  | ok eff =>
    cases (exec_of_ok ha).symm.trans h
    cases (exec_of_ok (hans ▸ ha)).symm.trans h'
    refine ⟨rfl, rfl, rfl, fun _ r hr => ?_⟩
    have hreg : eff.reg r = true := (answer_reg ha r).trans hr
    have hs := statusReg_of_reg hreg
    rw [readReg_complete _ hs, readReg_complete _ hs]
    exact readReg_store_result hreg _ _
  | bad e pos ch =>
    cases (exec_of_bad ha).symm.trans h
    cases (exec_of_bad (hans ▸ ha)).symm.trans h'
    exact ⟨rfl, rfl, rfl, fun he => absurd he (errorNumber_ne_zero e)⟩

/-! A command or a write repeated (spec/20_memory.md R60, spec/60_exceptions.md R214). -/

section
variable {i : Instr} {s t : State}

/-- No command writes one of its own operands. -/
theorem operandReg_unwritten {r : Reg} (h : operandReg i r = true) :
    resultReg i r = false ∧ statusReg r = false := by
  cases i <;> cases r <;> first | exact ⟨rfl, rfl⟩ | cases h

/-- Words that were read before, by an access that left its record, record nothing new. -/
theorem noteRead_again {rs : List Reg} (hk : keepsRecords s t)
    (hf : t.faulted = (noteRead rs s).faulted) : noteRead rs t = t := by
  have hsame : (noteRead rs t).faulted = t.faulted := by
    cases ht : t.faulted with
    | true => simp [ht]
    | false =>
      rw [noteRead_faulted_iff]
      obtain ⟨-, hwritten⟩ := (noteRead_faulted_iff rs s).mp (hf ▸ ht)
      exact ⟨ht, fun r hr => hk.2 r (hwritten r hr)⟩
  exact congrArg (fun b => { t with faulted := b }) hsame

/-- A command that has taken no draw finds its operands as they were, and does the same again. -/
theorem exec_again (h : exec i s = .next t) (hd : takesDraw i = false ∨ t.err ≠ 0#4) :
    exec i t = .next t := by
  have hdraw : takesDraw i = true → Config.entropyDraw s.draws = Config.entropyDraw t.draws := by
    intro hi
    obtain hn | hn := hd
    · simp [hi] at hn
    · rw [drawsOnlyOnRandomSuccess i s t h, if_neg fun hc => hn hc.2, Nat.add_zero]
  obtain ⟨hans, hreads⟩ := answer_congr (i := i) (s := s) (s' := t) (fun r hr =>
    have ⟨hres, hstatus⟩ := operandReg_unwritten hr
    (sameWord_of_exec h hres hstatus).1.symm) hdraw
  have hnote := noteRead_again (exec_keepsRecords h) (exec_faulted h)
  rw [hreads] at hnote
  obtain ⟨eff, ha, he, ht⟩ | ⟨e, pos, ch, ha, -, ht⟩ := exec_answer_cases h
  · have hi := hd.resolve_right (not_not.mpr he)
    rw [exec_of_ok (hans ▸ ha), hnote, drawIf_of_not_takesDraw _ hi, ht, complete_store_again]
  · rw [exec_of_bad (hans ▸ ha), hnote, ht]
    rfl

end

/-- Settles O30: an error is raised without a draw. -/
theorem errorsAreNotTransient : Obligations.ErrorsAreNotTransient := by
  unfold Obligations.ErrorsAreNotTransient
  exact fun _ _ _ h he => exec_again h (.inr he)

theorem splice_again {n m : Nat} (v : BitVec n) (lo : Nat) (x : BitVec m) :
    splice (splice v lo x) lo x = splice v lo x := by
  apply BitVec.eq_of_getLsbD_eq
  intro k hk
  rw [splice_getLsbD, splice_getLsbD]
  split <;> rfl

theorem setBufWord_again (b : Vector Byte 16) (w : Fin 4) (v : Word) :
    setBufWord (setBufWord b w v) w v = setBufWord b w v := by
  apply Vector.ext
  intro k hk
  rw [setBufWord_getElem, setBufWord_getElem]
  split <;> rfl

theorem writeReg_again (r : Reg) (v : Word) (s : State) :
    writeReg r v (writeReg r v s) = writeReg r v s := by
  cases r <;> simp [writeReg, splice_again, setBufWord_again, BitVec.or_assoc]

/-- Settles O36: a command other than `PACKR` and `GENR` takes no draw, and a field replaced twice
by the same word is replaced once. -/
theorem repeatsChangeNothing : Obligations.RepeatsChangeNothing := by
  unfold Obligations.RepeatsChangeNothing
  refine ⟨fun i s t hr hg h => exec_again h (.inl ?_), writeReg_again⟩
  rw [← Bool.not_eq_true, takesDraw_iff]
  exact not_or.mpr ⟨hr, hg⟩

end Sys2Proof.Machine
end

section
/-! The order of numbers is the lexicographic order of their digits (spec/40_codec.md R108,
spec/41_engine_encode.md R163). -/

namespace Sys2Proof.Machine

/-- Digit sequences of one length are ordered as lists as their numbers are. -/
theorem horner_lt_iff {B : Nat} {l m : List Nat} (hl : ∀ d ∈ l, d < B) (hm : ∀ d ∈ m, d < B)
    (hlen : l.length = m.length) : horner B l < horner B m ↔ l < m := by
  induction l generalizing m with
  | nil =>
    obtain rfl := List.length_eq_zero_iff.mp hlen.symm
    simp
  | cons d l ih =>
    cases m with
    | nil => simp at hlen
    | cons e m =>
      have hl' : ∀ x ∈ l, x < B := fun x hx => hl x (by simp [hx])
      have hm' : ∀ x ∈ m, x < B := fun x hx => hm x (by simp [hx])
      have hlen' : l.length = m.length := by simpa using hlen
      have h1 := horner_lt hl'
      have h2 := hlen' ▸ horner_lt hm'
      rw [horner_cons, horner_cons, ← hlen', List.cons_lt_cons_iff, ← ih hl' hm' hlen']
      obtain hlt | rfl | hgt := Nat.lt_trichotomy d e
      · have := Nat.mul_le_mul_right (B ^ l.length) hlt
        rw [Nat.succ_mul] at this
        exact iff_of_true (by omega) (.inl hlt)
      · simp
      · have := Nat.mul_le_mul_right (B ^ l.length) hgt
        rw [Nat.succ_mul] at this
        exact iff_of_false (by omega) (by omega)

/-- The same, digit by digit. -/
theorem horner_ofFn_lt_iff {B n : Nat} {a b : Fin n → Nat} (ha : ∀ i, a i < B) (hb : ∀ i, b i < B) :
    horner B (List.ofFn a) < horner B (List.ofFn b) ↔
      ∃ i : Fin n, (∀ k : Fin n, k.val < i.val → a k = b k) ∧ a i < b i := by
  rw [horner_lt_iff (by simpa using ha) (by simpa using hb) (by simp), List.lt_iff_exists]
  constructor
  · rintro (⟨-, hlt⟩ | ⟨i, hi, _, hbefore, hlt⟩)
    · simp at hlt
    · have hn : i < n := by simpa using hi
      exact ⟨⟨i, hn⟩, fun k hk => by simpa using hbefore k.val hk, by simpa using hlt⟩
  · rintro ⟨i, hbefore, hlt⟩
    exact .inr ⟨i.val, by simp, by simp, fun k hk => by simpa using hbefore ⟨k, by omega⟩ hk,
      by simpa using hlt⟩

/-- The number that bytes spell, by its digits in base 256. -/
theorem be_eq_horner_ofFn {n : Nat} (b : Vector Byte n) :
    be b.toList = horner 256 (List.ofFn fun k : Fin n => b[k.val].toNat) := by
  rw [be_eq_horner]
  congr 1
  apply List.ext_getElem <;> simp

/-- Buffers are ordered byte by byte as their integers are (R163). -/
theorem bytesLt_iff (a b : Vector Byte 16) : bytesLt a b ↔ be a.toList < be b.toList := by
  rw [be_eq_horner_ofFn, be_eq_horner_ofFn,
    horner_ofFn_lt_iff (fun k => a[k.val].isLt) (fun k => b[k.val].isLt)]
  simp only [BitVec.toNat_inj, ← BitVec.lt_def]
  exact Iff.rfl

theorem code_inj {d e : Digit} : code d = code e ↔ d = e :=
  ⟨fun h => by simpa using congrArg idx h, congrArg code⟩

theorem enc26_getElem (v : Value) (i : Nat) (hi : i < 26) :
    (enc26 v)[i] = code (encDigit v i) := by
  simp [enc26]

/-- A value is the number that the digits of its text spell (R100). -/
theorem toNat_eq_horner_ofFn (v : Value) :
    v.toNat = horner 32 (List.ofFn fun i : Fin 26 => (encDigit v i.val).toNat) := by
  rw [← digitsValue_encDigits, digitsValue, encDigits, List.map_ofFn]
  rfl

/-- Settles O44: a value's digits spell it, and the codes are ordered as the digits are. -/
theorem textOrderIsValueOrder : Obligations.TextOrderIsValueOrder := by
  unfold Obligations.TextOrderIsValueOrder
  intro v w
  rw [BitVec.lt_def, toNat_eq_horner_ofFn, toNat_eq_horner_ofFn,
    horner_ofFn_lt_iff (fun i => (encDigit v i.val).isLt) (fun i => (encDigit w i.val).isLt)]
  simp only [textLt, enc26_getElem, code_inj, code_lt_code_iff, BitVec.toNat_inj, ← BitVec.lt_def]

end Sys2Proof.Machine
end

section
/-! The encoding loop and the valid texts (spec/40_codec.md R100, R103), and the big-endian buffer
(spec/20_memory.md R61, spec/42_engine_decode.md R171). -/

namespace Sys2Proof.Machine

/-- The loop from position `n - 1` down writes the digits of `v` in the positions below `n`, where
`Sym(0)` stands for the digits it does not reach. -/
theorem enc26Loop_getElem {n v i : Nat} {s : Vector Word 26} (hi : i < 26)
    (hs : ∀ k (hk : k < 26), k < n → s[k] = code 0#5) :
    (enc26Loop n v s)[i] =
      if i < n then code (BitVec.ofNat 5 (v / 32 ^ (n - 1 - i))) else s[i] := by
  induction n generalizing v s with
  | zero => simp [enc26Loop]
  | succ n ih =>
    rw [enc26Loop]
    split
    next hv =>
      split
      next hin => simp [hv, hs i hi hin]
      next => rfl
    next =>
      rw [ih fun k hk hkn => by
        rw [Vector.getElem_setIfInBounds_ne _ (by omega)]
        exact hs k hk (by omega)]
      obtain hlt | rfl | hgt := Nat.lt_trichotomy i n
      · rw [if_pos hlt, if_pos (by omega), Nat.div_div_eq_div_mul, ← pow_succ',
          show n - 1 - i + 1 = n + 1 - 1 - i by omega]
      · have hmod : BitVec.ofNat 5 (v % 32) = BitVec.ofNat 5 v := BitVec.eq_of_toNat_eq (by simp)
        simp [hmod]
      · rw [if_neg (by omega), if_neg (by omega), Vector.getElem_setIfInBounds_ne _ (by omega)]

/-- Settles O41: the loop writes at position `i` the digit that the closed form has there. -/
theorem encodingLoopIsClosedForm : Obligations.EncodingLoopIsClosedForm := by
  unfold Obligations.EncodingLoopIsClosedForm
  intro v
  apply Vector.ext
  intro i hi
  rw [enc26ByLoop, enc26Loop_getElem hi (by simp), if_pos hi, enc26_getElem]
  congr 1
  apply BitVec.eq_of_toNat_eq
  rw [encDigit_toNat, BitVec.toNat_ofNat, show 32 = 2 ^ 5 from rfl, ← pow_mul]
  congr 3
  omega

/-- The text of a value is valid (R102). -/
theorem validText_enc26 (v : Value) : validText (enc26 v) = true := by
  rw [validText_iff]
  intro i
  rw [textSlotOk_iff, enc26_getElem, idx_code]
  exact ⟨_, rfl, fun hi => hi ▸ encDigit_zero_le v⟩

/-- Settles O42: a valid text decodes, and it is the text of the value decoded; a value is decoded
from its text. -/
theorem validTextsAreEncodings : Obligations.ValidTextsAreEncodings := by
  unfold Obligations.ValidTextsAreEncodings
  intro w
  refine ⟨⟨fun h => ?_, ?_⟩, fun v v' h => ?_⟩
  · obtain ⟨a, ha⟩ := foldText_valid h
    exact ⟨_, (enc26_of_foldText ha).2.symm⟩
  · rintro ⟨v, rfl⟩
    exact validText_enc26 v
  · have hfold := foldText_enc26 v
    rw [h, foldText_enc26] at hfold
    exact BitVec.eq_of_toNat_eq (FoldResult.ok.inj hfold).symm

/-- Settles O50: both are the 16 bytes of the value's integer. -/
theorem halvesAreBigEndian : Obligations.HalvesAreBigEndian := by
  unfold Obligations.HalvesAreBigEndian
  intro v
  apply vector_eq_of_be
  rw [be_splitBytes, be_beBytes, Nat.mod_eq_of_lt (by have := v.isLt; omega)]

/-- Settles O60: 16 bytes are the packed fields exactly when they have their integer. -/
theorem bufferIsBigEndian : Obligations.BufferIsBigEndian := by
  unfold Obligations.BufferIsBigEndian
  intro ts p b
  rw [packedBytes_iff, ← be_pack16]
  exact ⟨fun h => by rw [h], vector_eq_of_be⟩

end Sys2Proof.Machine
end

section
/-! The laws of pairs of commands (spec/40_codec.md section 3, spec/41_engine_encode.md sections 5
and 7, spec/42_engine_decode.md section 4). -/

namespace Sys2Proof.Machine

/-! Decoding undoes encoding. -/

/-- A state that holds the text of a value. -/
def holdsText (v : Value) (s : State) : Prop := s.strlen = 26#32 ∧ s.str = enc26 v

section
variable {s t : State} {v : Value}

theorem exec_dec_of_holdsText (hs : holdsText v s) (h : exec .dec s = .next t) :
    noError t ∧ t.val = v := by
  cases (exec_dec (textOperand_enc26 hs.1 hs.2)).symm.trans h
  exact ⟨noError_complete _, rfl⟩

theorem exec_s2b_of_holdsText (hs : holdsText v s) (h : exec .s2b s = .next t) :
    noError t ∧ t.buflen = 16#32 ∧ t.buf = splitBytes v := by
  cases (exec_s2b (textOperand_enc26 hs.1 hs.2)).symm.trans h
  exact ⟨noError_complete _, rfl, rfl⟩

theorem exec_dtime_of_holdsText {ts : Stamp} {p : Payload} (hs : holdsText (ts ++ p) s)
    (h : exec .dtime s = .next t) : noError t ∧ t.time = ts.setWidth 64 := by
  cases (exec_dtime (textTimeOperand_enc26 hs.1 hs.2)).symm.trans h
  exact ⟨noError_complete _, rfl⟩

/-- A valid text of length 26 is the text of a value. -/
theorem holdsText_of_valid (hl : s.strlen = 26#32) (hv : validText s.str = true) :
    ∃ v, holdsText v s := by
  obtain ⟨v, -, henc⟩ := textOperand_valid hl hv
  exact ⟨v, hl, henc⟩

theorem holdsText_of_enc (h : exec .enc s = .next t) : noError t ∧ holdsText s.val t := by
  cases (exec_enc s).symm.trans h
  exact ⟨noError_complete _, rfl, rfl⟩

theorem holdsText_of_b2s (hl : s.buflen = 16#32) (h : exec .b2s s = .next t) :
    noError t ∧ holdsText (be16 s.buf) t := by
  cases (exec_b2s hl).symm.trans h
  exact ⟨noError_complete _, rfl, rfl⟩

end

/-- Settles O43: `DEC` reads back the value whose text `ENC` writes. -/
theorem codecRoundTrip : Obligations.CodecRoundTrip := by
  unfold Obligations.CodecRoundTrip
  refine ⟨fun s t u henc hdec => ?_, fun s t u hl hv hdec henc => ?_⟩
  · exact exec_dec_of_holdsText (holdsText_of_enc henc).2 hdec
  · obtain ⟨v, hs⟩ := holdsText_of_valid hl hv
    obtain ⟨-, hval⟩ := exec_dec_of_holdsText hs hdec
    obtain ⟨hok, -, hstr⟩ := holdsText_of_enc henc
    exact ⟨hok, by rw [hstr, hval, hs.2]⟩

theorem splitBytes_be16 (b : Vector Byte 16) : splitBytes (be16 b) = b := by
  rw [halvesAreBigEndian, beBytes_be16]

/-- Settles O45: `S2B` reads back the integer whose text `B2S` writes. -/
theorem binaryTextRoundTrip : Obligations.BinaryTextRoundTrip := by
  unfold Obligations.BinaryTextRoundTrip
  refine ⟨fun s t u hl hb2s hs2b => ?_, fun s t u hl hv hs2b hb2s => ?_⟩
  · obtain ⟨hok, -, hbuf⟩ := exec_s2b_of_holdsText (holdsText_of_b2s hl hb2s).2 hs2b
    exact ⟨hok, by rw [hbuf, splitBytes_be16]⟩
  · obtain ⟨v, hs⟩ := holdsText_of_valid hl hv
    obtain ⟨-, hlen, hbuf⟩ := exec_s2b_of_holdsText hs hs2b
    obtain ⟨hok, -, hstr⟩ := holdsText_of_b2s hlen hb2s
    exact ⟨hok, by rw [hstr, hbuf, be16_splitBytes, hs.2]⟩

/-! What the generating commands write. -/

section
variable {i : Instr} {s t : State}

/-- A successful `GENS` or `GENR` writes the text of the timestamp field and a payload. -/
theorem holdsText_of_gen (hi : i ∈ [Instr.gens, .genr]) (h : exec i s = .next t)
    (he : t.err = 0#4) : acceptsTime s ∧ ∃ p : Payload, holdsText (lowStamp s ++ p) t := by
  simp only [List.mem_cons, List.not_mem_nil, or_false] at hi
  obtain rfl | rfl := hi
  · obtain ⟨p, ht, -, -, rfl⟩ := gens_success h he
    exact ⟨ht, p, rfl, rfl⟩
  · obtain ⟨ht, rfl⟩ := genr_success h he
    exact ⟨ht, _, rfl, rfl⟩

/-- A successful `PACK`, `PACKS` or `PACKR` writes the bytes of the timestamp field and a
payload. -/
theorem buf_of_pack (hi : i ∈ [Instr.pack, .packs, .packr]) (h : exec i s = .next t)
    (he : t.err = 0#4) : ∃ p, t.buf = pack16 (lowStamp s) p := by
  simp only [List.mem_cons, List.not_mem_nil, or_false] at hi
  obtain rfl | rfl | rfl := hi
  · obtain ⟨-, rfl⟩ := pack_success h he
    exact ⟨_, rfl⟩
  · obtain ⟨p, -, -, -, rfl⟩ := packs_success h he
    exact ⟨p, rfl⟩
  · obtain ⟨-, rfl⟩ := packr_success h he
    exact ⟨_, rfl⟩

end

/-- Settles O46: the text written is that of the timestamp field and a payload, of which `DTIME`
reads the timestamp. -/
theorem timestampExtraction : Obligations.TimestampExtraction := by
  unfold Obligations.TimestampExtraction
  intro i hi s t u h he hdtime
  obtain ⟨ht, p, hp⟩ := holdsText_of_gen hi h he
  obtain ⟨hok, htime⟩ := exec_dtime_of_holdsText hp hdtime
  exact ⟨hok, htime, fun h0 => htime.trans (lowStamp_of_accepted ht h0)⟩

/-- A zero-extended 48-bit timestamp is accepted and is its own field. -/
theorem accepts_zeroExtended {s : State} {ts : Stamp} (h : s.time = ts.setWidth 64) :
    acceptsTime s ∧ lowStamp s = ts := by
  have hts := ts.isLt
  have hnat : s.time.toNat = ts.toNat := by
    rw [h, BitVec.toNat_setWidth, Nat.mod_eq_of_lt (by omega)]
  have hint : s.time.toInt = ts.toNat := by
    rw [BitVec.toInt_eq_toNat_of_lt (by omega), hnat]
  refine ⟨.inr (by omega), ?_⟩
  rw [← setWidth_time, h]
  simp

/-- What `PACK` of an accepted timestamp writes. -/
theorem buf_of_exec_pack {s t : State} (ht : acceptsTime s) (h : exec .pack s = .next t) :
    noError t ∧ t.buflen = 16#32 ∧ t.buf = pack16 (lowStamp s) s.pay := by
  cases (exec_pack ht).symm.trans h
  exact ⟨noError_complete _, rfl, rfl⟩

/-- What `UNPACK` of 16 bytes writes. -/
theorem fields_of_exec_unpack {s t : State} (hl : s.buflen = 16#32)
    (h : exec .unpack s = .next t) :
    noError t ∧ t.time = (stampOf s.buf).setWidth 64 ∧ t.pay = payloadOf s.buf := by
  cases (exec_unpack hl).symm.trans h
  exact ⟨noError_complete _, rfl, rfl⟩

/-- Settles O47: the fields of packed bytes are those packed, and 16 bytes are their fields
packed. -/
theorem packUnpackRoundTrip : Obligations.PackUnpackRoundTrip := by
  unfold Obligations.PackUnpackRoundTrip
  refine ⟨fun s t u hpack he hunpack => ?_, fun s t u hl hunpack hpack => ?_⟩
  · obtain ⟨-, hlen, hbuf⟩ := buf_of_exec_pack (pack_success hpack he).1 hpack
    obtain ⟨hok, htime, hpay⟩ := fields_of_exec_unpack hlen hunpack
    exact ⟨hok, by rw [htime, hbuf, stampOf_pack16], by rw [hpay, hbuf, payloadOf_pack16]⟩
  · obtain ⟨-, htime, hpay⟩ := fields_of_exec_unpack hl hunpack
    obtain ⟨ht, hstamp⟩ := accepts_zeroExtended (s := { t with tspol := 0#1 }) htime
    obtain ⟨hok, -, hbuf⟩ := buf_of_exec_pack ht hpack
    exact ⟨hok, by rw [hbuf, hstamp, hpay, pack16_fields]⟩

/-- Settles O48: the timestamp stands above the payload in the value and in the buffer's integer. -/
theorem timestampOrder : Obligations.TimestampOrder := by
  unfold Obligations.TimestampOrder
  intro s s' t t' hlt
  have above : ∀ p p' : Payload, (lowStamp s).toNat * 2 ^ 80 + p.toNat <
      (lowStamp s').toNat * 2 ^ 80 + p'.toNat := fun p p' => by
    have := p.isLt
    omega
  refine ⟨fun i hi i' hi' h h' he he' => ?_, fun i hi i' hi' h h' he he' => ?_⟩
  · obtain ⟨-, p, -, hp⟩ := holdsText_of_gen hi h he
    obtain ⟨-, p', -, hp'⟩ := holdsText_of_gen hi' h' he'
    rw [hp, hp', ← textOrderIsValueOrder, BitVec.lt_def, toNat_fields, toNat_fields]
    exact above p p'
  · obtain ⟨p, hp⟩ := buf_of_pack hi h he
    obtain ⟨p', hp'⟩ := buf_of_pack hi' h' he'
    rw [hp, hp', bytesLt_iff, be_pack16, be_pack16]
    exact above p p'

/-! The characters of the two fields (R89). -/

/-- A digit is five bits of its value; the text's top two bits are the zeros past its end. -/
theorem encDigit_eq_extractLsb' (v : Value) (i : Nat) :
    encDigit v i = v.extractLsb' (125 - 5 * i) 5 :=
  BitVec.extractLsb'_setWidth_of_le (by omega)

/-- The first ten characters of two fields are those of the timestamp, whatever the payload. -/
theorem encDigit_stamp (ts : Stamp) (p : Payload) {i : Nat} (hi : i < 10) :
    encDigit (ts ++ p) i = ts.extractLsb' (45 - 5 * i) 5 := by
  rw [encDigit_eq_extractLsb', extractLsb'_append_upper _ _ _ _ (by omega)]
  congr 1
  omega

/-- The other sixteen are those of the payload. -/
theorem encDigit_payload (ts : Stamp) (p : Payload) (j : Nat) (hj : j < 16) :
    encDigit (ts ++ p) (10 + j) = p.extractLsb' (75 - 5 * j) 5 := by
  rw [encDigit_eq_extractLsb', extractLsb'_append_lower _ _ _ _ (by omega)]
  congr 1
  omega

/-- Settles O49: the digits of the payload that the override spells are the override's. -/
theorem gensKeepsOverrideCharacters : Obligations.GensKeepsOverrideCharacters := by
  unfold Obligations.GensKeepsOverrideCharacters
  intro s t h he
  obtain ⟨p, -, -, hover, rfl⟩ := gens_success h he
  refine ⟨fun i hi => ?_, fun j => ?_⟩
  · rw [complete_str, putStr_str, enc26_getElem, enc26_getElem, encDigit_stamp _ _ hi,
      encDigit_stamp _ _ hi]
  · rw [complete_str, putStr_str, enc26_getElem,
      encDigit_payload _ _ _ j.isLt, hover j]

end Sys2Proof.Machine
end

section
/-! The register map, and a read or a write of one register (spec/20_memory.md R51, R58, R59). -/

namespace Sys2Proof.Machine

/-- A register that answers at an aligned offset has that offset. -/
theorem offsetOf_of_regAt {off : Offset} {r : Reg} (ha : off.toNat % 4 = 0)
    (h : regAt off = some r) : offsetOf r = off := by
  obtain ⟨n, hn⟩ : ∃ n, off.toNat / 4 = n := ⟨_, rfl⟩
  have hoff : off = BitVec.ofNat 12 (4 * n) := by
    apply BitVec.eq_of_toNat_eq
    rw [BitVec.toNat_ofNat]
    omega
  have slot : ∀ base lo : Nat, base = 4 * lo → lo ≤ n →
      BitVec.ofNat 12 (base + 4 * (n - lo)) = BitVec.ofNat 12 (4 * n) := fun base lo hb hl =>
    congrArg (BitVec.ofNat 12) (by omega)
  rw [hoff]
  simp only [regAt, hn, ite_eq_iff, dite_eq_iff, Option.some.injEq, reduceCtorEq, exists_false,
    or_false] at h
  obtain ⟨rfl, rfl⟩ | ⟨-, ⟨rfl, rfl⟩ | ⟨-, ⟨rfl, rfl⟩ | ⟨-, ⟨rfl, rfl⟩ | ⟨-, ⟨hn, rfl⟩ |
    ⟨-, ⟨hn, rfl⟩ | ⟨-, ⟨rfl, rfl⟩ | ⟨-, ⟨rfl, rfl⟩ | ⟨-, ⟨rfl, rfl⟩ | ⟨-, ⟨rfl, rfl⟩ |
    ⟨-, ⟨rfl, rfl⟩ | ⟨-, ⟨hn, rfl⟩ | ⟨-, ⟨hn, rfl⟩ | ⟨-, ⟨hn, rfl⟩ |
    ⟨-, hn, rfl⟩⟩⟩⟩⟩⟩⟩⟩⟩⟩⟩⟩⟩⟩ := h
  all_goals first | exact slot _ _ rfl hn.1 | rfl

/-- Settles O51: the offsets of the table, and the inverse of the map. -/
theorem registerMap : Obligations.RegisterMap := by
  unfold Obligations.RegisterMap
  refine ⟨fun r => ⟨regAt_offsetOf r, offsetOf_aligned r⟩,
    fun off r ha h => (offsetOf_of_regAt ha h).symm, ?_⟩
  decide

section
variable {s : State} {rest : List HostAction} {r : Reg} {v : Word}

theorem hostRead_offsetOf (r : Reg) (s : State) :
    hostRead (offsetOf r) s = { noteRead [r] s with reads := s.reads ++ [readReg s r] } := by
  simp [hostRead]

theorem step_read_reg (h : s.host = .read .w32 (offsetOf r) :: rest) :
    step s = .next { noteRead [r] s with host := rest, reads := s.reads ++ [readReg s r] } := by
  rw [step_read (offsetOf_aligned r) h, hostRead_offsetOf]
  simp [noteRead]

end

/-- Settles O57: a read adds to the list of values read, and records at most a fault. -/
theorem readsHaveNoSideEffect : Obligations.ReadsHaveNoSideEffect := by
  unfold Obligations.ReadsHaveNoSideEffect
  intro s rest r h
  exact ⟨_, step_read_reg h, rfl, rfl, rfl⟩

/-- Settles O58: a write of a register but `CMD` is its store. -/
theorem writesOnlyStore : Obligations.WritesOnlyStore := by
  unfold Obligations.WritesOnlyStore
  intro s rest r v hr h
  exact step_write_reg hr h

/-- A register keeps its value when another is written (R59). -/
theorem readReg_writeReg_other (s : State) (v : Word) {r r' : Reg} (h : r' ≠ r) :
    readReg (writeReg r v s) r' = readReg s r' := by
  cases r with
  | cmd | status | errchar | ctrl | buflen | strlen | pstrlen | alpha =>
    cases r' <;> first | rfl | contradiction
  | val w =>
    cases r' with
    | val w' =>
      have hw : w'.val ≠ w.val := fun e => h (congrArg Reg.val (Fin.ext e))
      exact extractLsb'_splice_other _ _ _ _ _ (by omega)
    | _ => rfl
  | pay w =>
    cases r' with
    | pay w' =>
      have hw : w'.val ≠ w.val := fun e => h (congrArg Reg.pay (Fin.ext e))
      exact extractLsb'_splice_other _ _ _ _ _ (by omega)
    | _ => rfl
  | timeh | timel =>
    cases r' with
    | timeh | timel =>
      first | contradiction | exact extractLsb'_splice_other _ _ _ _ _ (by decide)
    | _ => rfl
  | buf w =>
    cases r' with
    | buf w' =>
      exact (bufWord_setBufWord s.buf w w' v).trans (if_neg fun e => h (congrArg Reg.buf e))
    | _ => simp only [readReg, writeReg]
  | str i =>
    cases r' with
    | str i' =>
      exact Vector.getElem_set_ne i.isLt i'.isLt fun e => h (congrArg Reg.str (Fin.ext e.symm))
    | _ => rfl
  | pstr i =>
    cases r' with
    | pstr i' =>
      exact Vector.getElem_set_ne i.isLt i'.isLt fun e => h (congrArg Reg.pstr (Fin.ext e.symm))
    | _ => rfl

/-- Settles O56: the fields of two registers do not overlap, and each word has its own written
bit. -/
theorem writeLeavesOtherWords : Obligations.WriteLeavesOtherWords := by
  unfold Obligations.WriteLeavesOtherWords
  intro s r r' v h
  exact ⟨readReg_writeReg_other s v h, by simp [isWritten_writeReg, h]⟩

end Sys2Proof.Machine
end

section
/-! The strict reading (spec/10_state.md R36). -/

namespace Sys2Proof.Machine

section
variable {s t : State}

theorem strictStep_of_faulted (h : step s = .next t) (hf : t.faulted = true) :
    strictStep s = .fault .unwrittenRead := by
  simp [strictStep, h, hf]

theorem strictStep_of_safe (h : step s = .next t) (hf : t.faulted = false) :
    strictStep s = .next t := by
  simp [strictStep, h, hf]

end

/-- Settles O39: the read records a fault exactly when the word is unwritten. -/
theorem strictHostRead : Obligations.StrictHostRead := by
  unfold Obligations.StrictHostRead
  intro s rest r hf h
  refine ⟨fun hw => strictStep_of_faulted (step_read_reg h) (by simp [hw]), fun hw => ?_⟩
  rw [strictStep_of_safe (step_read_reg h) (by simp [hf, hw])]
  simp [noteRead, hf, hw]

/-- Settles O40: `ENC` reads every word of `VAL`. -/
theorem strictEncFaults : Obligations.StrictEncFaults := by
  unfold Obligations.StrictEncFaults
  intro s rest w h hw
  have hstep := stepRunsDecodedCommand s rest _ _ h decode_word_enc
  refine strictStep_of_faulted (hstep.trans (exec_enc _)) ?_
  refine Bool.eq_true_of_not_eq_false fun hf => ?_
  obtain ⟨-, hall⟩ := (noteRead_faulted_iff _ _).mp hf
  have hwritten : isWritten s (.val w) = true := hall (.val w) ((valReads_iff (.val w)).mpr rfl)
  rw [hw] at hwritten
  cases hwritten

end Sys2Proof.Machine
end

section
/-! Each register by its words (spec/10_state.md section 2, spec/20_memory.md section 3,
spec/30_encoding.md section 2). -/

namespace Sys2Proof.Machine

/-! A register cut into fields, and one field of it replaced. -/

/-- Two adjacent fields are one field. -/
theorem extractLsb'_join {n : Nat} (x : BitVec n) (lo a b : Nat) :
    x.extractLsb' (lo + b) a ++ x.extractLsb' lo b = x.extractLsb' lo (a + b) :=
  BitVec.extractLsb'_append_extractLsb'_eq_extractLsb' rfl

/-- A vector is its upper and its lower field. -/
theorem eq_fields {a b : Nat} (x : BitVec (a + b)) :
    x = x.extractLsb' b a ++ x.extractLsb' 0 b := by
  have := extractLsb'_join x 0 a b
  rw [Nat.zero_add] at this
  rw [this, BitVec.extractLsb'_eq_self]

/-- A field replaced at the low end. -/
theorem splice_bottom {a m : Nat} (v : BitVec (a + m)) (x : BitVec m) :
    splice v 0 x = v.extractLsb' m a ++ x := by
  rw [eq_fields (splice v 0 x), extractLsb'_splice_other _ _ _ _ _ (by omega),
    extractLsb'_splice_self _ _ _ (by omega)]

/-- A field replaced at the high end, cut to the bits that are there. -/
theorem splice_top {a m lo : Nat} (h : a ≤ m) (v : BitVec (a + lo)) (x : BitVec m) :
    splice v lo x = x.extractLsb' 0 a ++ v.extractLsb' 0 lo := by
  rw [eq_fields (splice v lo x), extractLsb'_splice_low _ _ _ h (by omega),
    extractLsb'_splice_other _ _ _ _ _ (by omega)]

/-- A field replaced between two others. -/
theorem splice_middle {a m lo : Nat} (v : BitVec (a + m + lo)) (x : BitVec m) :
    splice v lo x = v.extractLsb' (lo + m) a ++ x ++ v.extractLsb' 0 lo := by
  rw [eq_fields (splice v lo x), ← extractLsb'_join,
    extractLsb'_splice_other _ _ _ _ _ (by omega), extractLsb'_splice_self _ _ _ (by omega),
    extractLsb'_splice_other _ _ _ _ _ (by omega)]

theorem statusWord_fields (err : BitVec 4) (pos : BitVec 5) :
    (statusWord err pos).extractLsb' 0 4 = err ∧ (statusWord err pos).extractLsb' 4 4 = 0#4 ∧
      (statusWord err pos).extractLsb' 8 5 = pos ∧
      (statusWord err pos).extractLsb' 13 19 = 0#19 := by
  revert err pos
  decide

theorem ctrlWord_fields (tspol : BitVec 1) :
    (ctrlWord tspol).extractLsb' 0 1 = tspol ∧ (ctrlWord tspol).extractLsb' 1 31 = 0#31 := by
  revert tspol
  decide

section
variable (s : State) (v : Word)

theorem val_eq_words :
    s.val = readReg s (.val 0) ++ readReg s (.val 1) ++ readReg s (.val 2) ++
      readReg s (.val 3) := by
  have h01 := extractLsb'_join s.val 64 32 32
  have h23 := extractLsb'_join s.val 32 64 32
  have h := eq_fields (a := 96) (b := 32) s.val
  rw [← h23, ← h01] at h
  exact h

theorem pay_eq_words :
    s.pay = (readReg s (.pay 0)).extractLsb' 0 16 ++ readReg s (.pay 1) ++ readReg s (.pay 2) := by
  have h01 := extractLsb'_join s.pay 32 16 32
  have h := eq_fields (a := 48) (b := 32) s.pay
  rw [← h01] at h
  rw [readReg_pay0, extractLsb'_append_lower _ _ _ _ (by decide), BitVec.extractLsb'_eq_self]
  exact h

theorem writeReg_buf_byte (w m : Fin 4) :
    (writeReg (.buf w) v s).buf[4 * w.val + m.val] = v.extractLsb' (24 - 8 * m.val) 8 := by
  rw [← bufWord_byte]
  exact congrArg (·.extractLsb' (24 - 8 * m.val) 8)
    ((bufWord_setBufWord s.buf w w v).trans (if_pos rfl))

end

/-- Settles O59: a register is its fields side by side, and a word written replaces one of them. -/
theorem registerWordOrder : Obligations.RegisterWordOrder := by
  unfold Obligations.RegisterWordOrder
  intro s v
  obtain ⟨herr, hlow, hpos, hhigh⟩ := statusWord_fields s.err s.errPos
  have whole : v.extractLsb' 0 32 = v := BitVec.extractLsb'_eq_self
  refine ⟨val_eq_words s, eq_fields (a := 32) (b := 32) s.time, pay_eq_words s, bufWord_byte s.buf,
    fun _ => rfl, fun _ => rfl, ⟨herr, hlow, hpos, hhigh, rfl⟩, ctrlWord_fields s.tspol,
    ⟨?_, ?_, ?_, ?_⟩, ⟨?_, ?_⟩, ⟨?_, ?_, ?_⟩, writeReg_buf_byte s v⟩
  · exact (splice_top (a := 32) (lo := 96) le_rfl s.val v).trans (by rw [whole])
  · exact splice_middle (a := 32) (lo := 64) s.val v
  · exact splice_middle (a := 64) (lo := 32) s.val v
  · exact splice_bottom (a := 96) s.val v
  · exact (splice_top (a := 32) (lo := 32) le_rfl s.time v).trans (by rw [whole])
  · exact splice_bottom (a := 32) s.time v
  · exact splice_top (a := 16) (lo := 64) (by decide) s.pay v
  · exact splice_middle (a := 16) (lo := 32) s.pay v
  · exact splice_bottom (a := 48) s.pay v

end Sys2Proof.Machine
end
